-- ==== Sys2Proof/Word.lean ====
section
/-! DEFINITION. The word types of the block: every register value is a u64, every buffer cell is a byte
(`00_scope.md` R8, R10). Shifts, wrapping subtraction, AND, OR and XOR are `BitVec`'s own (R12); a signed
reading is `BitVec.toInt` (R10). -/

namespace Sys2Proof

/-- Width in bits of every value operand and result (R8). -/
abbrev XLEN : Nat := 64

/-- A u64: the width `XLEN` of every value operand and result (R8, R10). -/
abbrev Word := BitVec 64

/-- One byte of the buffer (R10). -/
abbrev Byte := BitVec 8

end Sys2Proof
end

