-- ==== Sys2Proof/Config.lean ====
section
/-! DEFINITION. The implementation parameters of `00_scope.md` R8, the host address map's bases
(`10_state.md` R33), and the one free value of the model: what a buffer byte holds that nobody has written
since reset (`20_memory.md` R66). -/

namespace Sys2Proof.Config

/-- Largest byte width of `msgType` (R8). -/
@[simp] abbrev CAP_MSGTYPE : Nat := 4
/-- Largest byte width of `msgId` (R8). -/
@[simp] abbrev CAP_MSGID : Nat := 8
/-- Largest byte width of `fwdLen` (R8). -/
@[simp] abbrev CAP_FWD : Nat := 3
/-- Largest byte width of `bodyLen` (R8). -/
@[simp] abbrev CAP_BODY : Nat := 3
/-- Largest byte width of `dataLen` (R8). -/
@[simp] abbrev CAP_DATA : Nat := 7
/-- Bits of `pkgType` in the control word (R8). -/
@[simp] abbrev PKG_BITS : Nat := 4
/-- Bytes of the control word (R8). -/
@[simp] abbrev CTRL_BYTES : Nat := 2
/-- Shortest header (R8, R76). -/
@[simp] abbrev MINHDR : Nat := 4
/-- Longest header (R8, R76). -/
@[simp] abbrev MAXHDR : Nat := 27
/-- Capacity of the buffer in bytes (R8; any value from `MAXHDR` to 255 gives the same rules). -/
@[simp] abbrev BUFCAP : Nat := 32
/-- Largest width the field commands and the Width Calculator take (R8). -/
@[simp] abbrev MAXW : Nat := 8

/-- Host address of `STATUS` (R27, R33). -/
@[simp] abbrev STATUS_ADDR : BitVec 9 := 0x008#9
/-- Host address of `BLEN` (R28, R33). -/
@[simp] abbrev BLEN_ADDR : BitVec 9 := 0x009#9
/-- Host address of `CMD` (R29, R33). -/
@[simp] abbrev CMD_ADDR : BitVec 9 := 0x00A#9
/-- Host address of `buf[0]` (R33). -/
@[simp] abbrev BUF_BASE : Nat := 0x100

/-- FREE VALUE (log entry 1). The byte at a buffer offset that nobody has written since the last reset: one free
draw per offset, fixed until written, not assumed equal after two resets (`10_state.md` R36, `20_memory.md` R66,
`93_implementation_defined.md` U8). `resetCount` tells one reset from another. It has no body: nothing can be
proved about its value. -/
opaque unwrittenByte (resetCount offset : Nat) : Byte

end Sys2Proof.Config
end

