-- ==== Sys2Proof/Syntax.lean ====
section
/-! DEFINITION. The abstract syntax: the instructions (one constructor per row of `spec/opcode_table.json`), the host
transactions that carry them to the block (`10_state.md` R32), what a transaction returns, the general registers'
names (R21), and the assembler's lines (`30_encoding.md` R88 to R90). -/

namespace Sys2Proof

/-- The eight general registers, `x[0]` to `x[7]` in this order (`10_state.md` R21). -/
inductive Reg
  | pkg | mtype | mid | fwd | body | data | val | res
  deriving DecidableEq, Repr

/-- The rows of `spec/opcode_table.json`. Immediates are the command word's fields as they stand (R83, R84).

* `width` to `parse`: the seven commands (R85).
* `reservedOp7`: the reserved `op` 7 with the other 13 bits of the word; it always raises `IllegalCommand` (R86).
* `wmsgid` to `wdata`: the pseudo-commands, each another name for one WIDTH word (R89); the decoder never yields them.
* `hdrByte0`, `hdrByte1`: the two control bytes of a header on the wire (R71, R72), which are no commands: here, the
  receipt of that byte into the buffer (log entry 4). -/
inductive Instr
  | width (z : Bool) (w : BitVec 4)
  | zzenc
  | zzdec
  | fenc (off : BitVec 8) (w : BitVec 4)
  | fdec (off : BitVec 8) (w : BitVec 4)
  | build
  | parse
  | reservedOp7 (rest : BitVec 13)
  | wmsgid
  | wmsgtype
  | wfwd
  | wbody
  | wdata
  | hdrByte0 (p : BitVec 4) (t : BitVec 2) (f : BitVec 2)
  | hdrByte1 (i : BitVec 3) (b : BitVec 2) (d : BitVec 3)
  deriving DecidableEq, Repr

/-- What an instruction is read from: a 64-bit value written to `CMD` (R29, R83), or the first or the second byte of
a header (R70 to R72). -/
inductive Encoding
  | command (v : Word)
  | wire0 (b : Byte)
  | wire1 (b : Byte)
  deriving DecidableEq, Repr

/-- Why a value written to `CMD` selects no instruction: the items of `30_encoding.md` R86 (item 2, `op` = 7, is the
instruction `reservedOp7`). Each ends in `IllegalCommand`. -/
inductive Reject
  /-- Item 1: bits 63:16 are not all zero. -/
  | upperBits
  /-- Item 3: a must-be-zero field of the `op` is not zero. -/
  | mustBeZero
  /-- Item 4: WIDTH with a cap of 0 or above 8. -/
  | cap
  /-- Item 5: FENC or FDEC with a width above 8. -/
  | fieldWidth
  deriving DecidableEq, Repr

/-- One transaction of the host (`10_state.md` R32). -/
inductive HostTx
  | write (a : BitVec 9) (v : Word)
  | read (a : BitVec 9)
  | reset
  deriving DecidableEq, Repr

/-- What a transaction returns to the host: a `HostRead` its value, a write to `CMD` the command's code
(`10_state.md` R29, R32; `70_reset_and_hazards.md` R223). -/
inductive Reply
  | value (v : Word)
  | code (c : BitVec 3)
  deriving DecidableEq, Repr

/-- How a command can end (`60_exceptions.md` R180). -/
inductive Completion
  | ok | incompleteHeader | fieldOverflow | illegalCommand | bufferBounds
  deriving DecidableEq, Repr

/-- One location of the host address map (`10_state.md` R33). -/
inductive Location
  | reg (r : Reg)
  | status
  | blen
  | cmd
  | buf (k : Nat)
  | unmapped
  deriving DecidableEq, Repr

/-- A bit-field of a control byte: `field = (byte >> shift) & mask` (`30_encoding.md` R73). -/
structure BitField where
  shift : Nat
  mask : Byte
  deriving DecidableEq, Repr

/-- The control word as numbers: the packet type and the byte widths of the five fields (`30_encoding.md` R71, R72). -/
structure ControlWord where
  pkgType : BitVec 4
  msgTypeBytes : Nat
  msgIdBytes : Nat
  fwdBytes : Nat
  bodyBytes : Nat
  dataBytes : Nat
  deriving DecidableEq, Repr

/-- One line of a program in the assembler's form (`30_encoding.md` R88 to R90). That the offset of `PUTB` and `GETB` is 0
to 255 is a DESIGN CHOICE (log entry 9). -/
inductive AsmLine
  | instr (i : Instr)
  | cmd (v : Word)
  | set (r : Reg) (v : Word)
  | get (r : Reg)
  | putb (off : BitVec 8) (v : Word)
  | getb (off : BitVec 8)
  | setlen (v : Word)
  | getlen
  | getst
  | reset
  | load (bytes : List Byte)
  deriving DecidableEq, Repr

end Sys2Proof
end

