-- ==== Sys2Proof/WellFormed.lean ====
section
/-! DEFINITION. The value constraints on an instruction's immediates (`30_encoding.md` R84, R85). Field widths are
the types'. -/

namespace Sys2Proof

/-- An instruction the block gives a meaning other than `IllegalCommand`: WIDTH takes a cap from 1 to 8, FENC and FDEC
a width from 0 to 8 (R84, R85), and `op` 7 is never legal (R86 item 2). Every control byte is legal (R79). -/
def Instr.wellFormed : Instr → Bool
  | .width _ w => decide (1 ≤ w.toNat) && decide (w.toNat ≤ Config.MAXW)
  | .fenc _ w | .fdec _ w => decide (w.toNat ≤ Config.MAXW)
  | .reservedOp7 _ => false
  | .zzenc | .zzdec | .build | .parse => true
  | .wmsgid | .wmsgtype | .wfwd | .wbody | .wdata => true
  | .hdrByte0 _ _ _ | .hdrByte1 _ _ _ => true

/-- A row that is written to `CMD`; the others are the control bytes of the header (R79: "not a command" of the
opcode table). -/
def Instr.isCommand : Instr → Bool
  | .hdrByte0 _ _ _ | .hdrByte1 _ _ _ => false
  | .width _ _ | .zzenc | .zzdec | .fenc _ _ | .fdec _ _ | .build | .parse | .reservedOp7 _ => true
  | .wmsgid | .wmsgtype | .wfwd | .wbody | .wdata => true

end Sys2Proof
end

