-- ==== Sys2Proof/Decode.lean ====
section
/-! DEFINITION. The encodings: the fields of the command word and of the two control bytes, the decoder (total, each
rejection named), the encoder, and the pseudo-commands' expansion (`30_encoding.md` R71 to R73, R83 to R89). -/

namespace Sys2Proof

/-! ### The control bytes (Part A) -/

/-- `pkgType`: byte 0, bits 7:4, the value itself (R73). -/
def Wire.PKG : BitField := ⟨4, 0xF#8⟩
/-- `msgTypeBytes - 1`: byte 0, bits 3:2 (R73). -/
def Wire.MTB : BitField := ⟨2, 0x3#8⟩
/-- `fwdBytes`: byte 0, bits 1:0 (R73). -/
def Wire.FWB : BitField := ⟨0, 0x3#8⟩
/-- `msgIdBytes - 1`: byte 1, bits 7:5 (R73). -/
def Wire.IDB : BitField := ⟨5, 0x7#8⟩
/-- `bodyBytes`: byte 1, bits 4:3 (R73). -/
def Wire.BDB : BitField := ⟨3, 0x3#8⟩
/-- `dataBytes`: byte 1, bits 2:0 (R73). -/
def Wire.DTB : BitField := ⟨0, 0x7#8⟩

/-- `(byte >> SHIFT) & MASK` (R73, R77). -/
def BitField.get (f : BitField) (b : Byte) : Byte := (b >>> f.shift) &&& f.mask

/-- A code moved to its field's place (R78). -/
def BitField.place (f : BitField) (code : Byte) : Byte := code <<< f.shift

/-- Byte 0 from its three codes (R71, R78). -/
def Wire.byte0 (pkg mtb fwb : Byte) : Byte :=
  Wire.PKG.place pkg ||| Wire.MTB.place mtb ||| Wire.FWB.place fwb

/-- Byte 1 from its three codes (R72, R78). -/
def Wire.byte1 (idb bdb dtb : Byte) : Byte :=
  Wire.IDB.place idb ||| Wire.BDB.place bdb ||| Wire.DTB.place dtb

/-- Byte 0 read as its fields; every value is legal (R71, R79). -/
def decodeByte0 (b : Byte) : Instr :=
  .hdrByte0 ((Wire.PKG.get b).setWidth 4) ((Wire.MTB.get b).setWidth 2) ((Wire.FWB.get b).setWidth 2)

/-- Byte 1 read as its fields; every value is legal (R72, R79). -/
def decodeByte1 (b : Byte) : Instr :=
  .hdrByte1 ((Wire.IDB.get b).setWidth 3) ((Wire.BDB.get b).setWidth 2) ((Wire.DTB.get b).setWidth 3)

/-! ### The command word (Part B) -/

/-- Bits 15:13 of the command word (R83). -/
def Cmd.op (c : BitVec 16) : BitVec 3 := c.extractLsb' 13 3
/-- Bit 12 of the command word (R83). -/
def Cmd.z (c : BitVec 16) : Bool := c.getLsbD 12
/-- Bits 11:8 of the command word (R83). -/
def Cmd.w (c : BitVec 16) : BitVec 4 := c.extractLsb' 8 4
/-- Bits 7:0 of the command word (R83). -/
def Cmd.off (c : BitVec 16) : BitVec 8 := c.extractLsb' 0 8

/-- A command without operands: `z`, `w` and `off` must be zero (R85). -/
def decodeBare (c : BitVec 16) (i : Instr) : Except Reject Instr :=
  if Cmd.z c || Cmd.w c != 0#4 || Cmd.off c != 0#8 then .error .mustBeZero else .ok i

/-- WIDTH: `off` must be zero and the cap is 1 to 8 (R85, R86 items 3 and 4). -/
def decodeWidth (c : BitVec 16) : Except Reject Instr :=
  if Cmd.off c != 0#8 then .error .mustBeZero
  else if (Cmd.w c).toNat < 1 ∨ Config.MAXW < (Cmd.w c).toNat then .error .cap
  else .ok (.width (Cmd.z c) (Cmd.w c))

/-- FENC and FDEC: `z` must be zero and the width is at most 8 (R85, R86 items 3 and 5). -/
def decodeField (c : BitVec 16) (i : Instr) : Except Reject Instr :=
  if Cmd.z c then .error .mustBeZero
  else if Config.MAXW < (Cmd.w c).toNat then .error .fieldWidth
  else .ok i

/-- The operation map (R85). -/
def decodeWord (c : BitVec 16) : Except Reject Instr :=
  match (Cmd.op c).toNat with
  | 0 => decodeWidth c
  | 1 => decodeBare c .zzenc
  | 2 => decodeBare c .zzdec
  | 3 => decodeField c (.fenc (Cmd.off c) (Cmd.w c))
  | 4 => decodeField c (.fdec (Cmd.off c) (Cmd.w c))
  | 5 => decodeBare c .build
  | 6 => decodeBare c .parse
  | _ => .ok (.reservedOp7 (c.extractLsb' 0 13))

/-- The decoder: total on every 64-bit value written to `CMD` (R83, R86) and on every header byte (R79). -/
def decode : Encoding → Except Reject Instr
  | .command v =>
    if v.extractLsb' 16 48 != 0#48 then .error .upperBits else decodeWord (v.setWidth 16)
  | .wire0 b => .ok (decodeByte0 b)
  | .wire1 b => .ok (decodeByte1 b)

/-! ### The encoder -/

/-- A command word from its four fields, `op` highest (R83). -/
def commandWord (op : BitVec 3) (z : Bool) (w : BitVec 4) (off : BitVec 8) : BitVec 16 :=
  op ++ BitVec.ofBool z ++ w ++ off

/-- The value written to `CMD` for a command word: bits 63:16 zero (R83). -/
def commandValue (op : BitVec 3) (z : Bool) (w : BitVec 4) (off : BitVec 8) : Encoding :=
  .command ((commandWord op z w off).setWidth 64)

/-- The words of an instruction (R71, R72, R85, R88, R89). -/
def encode : Instr → Encoding
  | .width z w => commandValue 0#3 z w 0#8
  | .zzenc => commandValue 1#3 false 0#4 0#8
  | .zzdec => commandValue 2#3 false 0#4 0#8
  | .fenc off w => commandValue 3#3 false w off
  | .fdec off w => commandValue 4#3 false w off
  | .build => commandValue 5#3 false 0#4 0#8
  | .parse => commandValue 6#3 false 0#4 0#8
  | .reservedOp7 r => .command ((7#3 ++ r).setWidth 64)
  | .wmsgid => commandValue 0#3 false 8#4 0#8
  | .wmsgtype => commandValue 0#3 false 4#4 0#8
  | .wfwd => commandValue 0#3 true 3#4 0#8
  | .wbody => commandValue 0#3 true 3#4 0#8
  | .wdata => commandValue 0#3 true 7#4 0#8
  | .hdrByte0 p t f => .wire0 (Wire.byte0 (p.setWidth 8) (t.setWidth 8) (f.setWidth 8))
  | .hdrByte1 i b d => .wire1 (Wire.byte1 (i.setWidth 8) (b.setWidth 8) (d.setWidth 8))

/-- A pseudo-command's expansion (R89); any other instruction is itself. -/
def Instr.expand : Instr → Instr
  | .wmsgid => .width false 8#4
  | .wmsgtype => .width false 4#4
  | .wfwd => .width true 3#4
  | .wbody => .width true 3#4
  | .wdata => .width true 7#4
  | .width z w => .width z w
  | .zzenc => .zzenc
  | .zzdec => .zzdec
  | .fenc off w => .fenc off w
  | .fdec off w => .fdec off w
  | .build => .build
  | .parse => .parse
  | .reservedOp7 r => .reservedOp7 r
  | .hdrByte0 p t f => .hdrByte0 p t f
  | .hdrByte1 i b d => .hdrByte1 i b d

/-- The encoding a row of `spec/opcode_table.json` of `nbits` bits stands for: an 8-bit row is a byte of the header,
taken as its first (log entry 5); any other is a value written to `CMD`. -/
def tableEncoding (nbits w : Nat) : Encoding :=
  if nbits = 8 then .wire0 (BitVec.ofNat 8 w) else .command (BitVec.ofNat 64 w)

/-- What the decoder reads from a table word; none where it rejects, or where `w` is no 64-bit value. -/
def decodeTableWord (nbits w : Nat) : Option Instr :=
  if 2 ^ 64 ≤ w then none
  else
    match decode (tableEncoding nbits w) with
    | .ok i => some i
    | .error _ => none

end Sys2Proof
end

