-- ==== Sys2Proof/Machine/State.lean ====
section
/-! DEFINITION. The state of one FHC and of the host's program that drives it, the ways a step can stop, and the
reset state (`10_state.md` R20 to R37). -/

namespace Sys2Proof.Machine

/-- Nothing stops the block: every command is defined in every state and terminates, and an exception is a completed
command with a non-zero code (`60_exceptions.md` R186, R187; `70_reset_and_hazards.md` R213, R222). So no fault exists
and no definition raises one. -/
inductive Fault
  deriving DecidableEq, Repr

/-- The refusals of the model. -/
inductive Refusal
  /-- Only an arm of `exec` that has no meaning yet would raise it; no arm does. Safe: it stops. -/
  | notModelled (mnemonic : String)
  deriving DecidableEq, Repr

/-- The bytes written to the buffer since the last reset, by offset, offsets strictly rising and below `BUFCAP`
(`10_state.md` R30; log entry 2). -/
abbrev Memory := List Host.Cell

/-- The whole architectural state (R20) and, below it, three fields of the model's own: the host's program, what its
transactions have returned, and how many resets came before (log entries 1, 3). -/
structure State where
  /-- `x[0]` (R21). -/
  pkg : Word
  /-- `x[1]` (R21). -/
  mtype : Word
  /-- `x[2]` (R21). -/
  mid : Word
  /-- `x[3]` (R21). -/
  fwd : Word
  /-- `x[4]` (R21). -/
  body : Word
  /-- `x[5]` (R21). -/
  data : Word
  /-- `x[6]` (R21). -/
  val : Word
  /-- `x[7]` (R21). -/
  res : Word
  /-- `STATUS.code` (R27). -/
  code : BitVec 3
  /-- `BLEN` (R28). -/
  blen : BitVec 8
  /-- The buffer's written bytes (R30). -/
  buf : Memory
  /-- MODEL'S OWN: how many `Reset` transactions have been performed; the free values of unwritten bytes depend on it. -/
  resets : Nat
  /-- MODEL'S OWN: the host's program, the transactions not yet performed, next first (R223). -/
  pending : List HostTx
  /-- MODEL'S OWN: what the performed transactions returned, latest first (R223). -/
  replies : List Reply
  deriving DecidableEq, Repr

/-- The state after reset (R36): registers, `STATUS.code` and `BLEN` 0, no buffer byte written. The host has no program
yet, nothing has been returned, and no `Reset` transaction has been performed (log entry 3). -/
def State.reset : State where
  pkg := 0#64
  mtype := 0#64
  mid := 0#64
  fwd := 0#64
  body := 0#64
  data := 0#64
  val := 0#64
  res := 0#64
  code := 0#3
  blen := 0#8
  buf := []
  resets := 0
  pending := []
  replies := []

end Sys2Proof.Machine
end

