-- ==== Sys2Proof/Machine/Flags.lean ====
section
/-! DEFINITION. The completion status. The block has no condition codes, carry, overflow, zero or sign flags and no
predicates (`10_state.md` R26); `STATUS.code` is all a command leaves, and every command overwrites it (R27). -/

namespace Sys2Proof.Machine

/-- The code of each outcome (`60_exceptions.md` R180). -/
def completionCode : Completion → BitVec 3
  | .ok => 0#3
  | .incompleteHeader => 1#3
  | .fieldOverflow => 2#3
  | .illegalCommand => 3#3
  | .bufferBounds => 4#3

/-- `STATUS.code <- c` (`10_state.md` R27). -/
def State.setCode (s : State) (c : BitVec 3) : State := { s with code := c }

end Sys2Proof.Machine
end

