-- ==== Sys2Proof/Machine/Ops.lean ====
section
/-! DEFINITION. The named operations over registers and buffer, the completion of a command and the raising of an
exception (`00_scope.md` R13, `20_memory.md` R55, R56, `60_exceptions.md` R186). -/

namespace Sys2Proof.Machine

/-! ### Registers -/

/-- `x[i]`: every register reads as itself; none is hard-wired or aliased (`10_state.md` R21). -/
def State.readReg (s : State) : Reg → Word
  | .pkg => s.pkg
  | .mtype => s.mtype
  | .mid => s.mid
  | .fwd => s.fwd
  | .body => s.body
  | .data => s.data
  | .val => s.val
  | .res => s.res

/-- `x[i] <- v` (`10_state.md` R21, R23). -/
def State.setReg (s : State) (r : Reg) (v : Word) : State :=
  match r with
  | .pkg => { s with pkg := v }
  | .mtype => { s with mtype := v }
  | .mid => { s with mid := v }
  | .fwd => { s with fwd := v }
  | .body => { s with body := v }
  | .data => { s with data := v }
  | .val => { s with val := v }
  | .res => { s with res := v }

/-- `BLEN <- n` (`10_state.md` R28). -/
def State.setBlen (s : State) (n : BitVec 8) : State := { s with blen := n }

/-- The host receives a transaction's result (`10_state.md` R29, R32; `70_reset_and_hazards.md` R223). -/
def State.pushReply (s : State) (r : Reply) : State := { s with replies := r :: s.replies }

/-! ### The buffer -/

/-- The byte stored at an offset, if one has been written since reset. -/
def Memory.lookup : Memory → Nat → Option Byte
  | [], _ => none
  | (a, b) :: m, k => if k = a then some b else Memory.lookup m k

/-- Store a byte, keeping the offsets strictly rising. -/
def Memory.insert : Memory → Nat → Byte → Memory
  | [], k, v => [(k, v)]
  | (a, b) :: m, k, v =>
    if k < a then (k, v) :: (a, b) :: m
    else if k = a then (k, v) :: m
    else (a, b) :: Memory.insert m k v

/-- Offsets strictly rising from `lo` and below `BUFCAP`. -/
def Memory.rises : Nat → Memory → Bool
  | _, [] => true
  | lo, (a, _) :: m => decide (lo ≤ a) && decide (a < Config.BUFCAP) && Memory.rises (a + 1) m

/-- The canonical form (log entry 2). -/
def Memory.wf (m : Memory) : Bool := Memory.rises 0 m

/-- `buf[k]`: the last byte written there, or the free draw of this reset (`20_memory.md` R62, R66). -/
def State.readByte (s : State) (k : Nat) : Byte :=
  (Memory.lookup s.buf k).getD (Config.unwrittenByte s.resets k)

/-- `buf[k] <- b` (`00_scope.md` R13). -/
def State.writeByte (s : State) (k : Nat) (b : Byte) : State := { s with buf := Memory.insert s.buf k b }

/-- `sum for k = 0 .. n-1 of buf[off + k] * 2^(8k)` (`20_memory.md` R55). -/
def leSum (s : State) (off : Nat) : Nat → Nat
  | 0 => 0
  | n + 1 => leSum s off n + (s.readByte (off + n)).toNat * 2 ^ (8 * n)

/-- `MemRead(off, n)`: little-endian, zero-extended (`20_memory.md` R55). -/
def memRead (s : State) (off n : Nat) : Word := BitVec.ofNat 64 (leSum s off n)

/-- Byte `k` of a u64, `v[8k+7:8k]` (`00_scope.md` R11). -/
def byteOf (v : Word) (k : Nat) : Byte := v.extractLsb' (8 * k) 8

/-- `MemWrite(off, n, v)`: the low `n` bytes of `v`, least significant first; the others are dropped
(`20_memory.md` R56). -/
def memWrite (s : State) (off : Nat) : Nat → Word → State
  | 0, _ => s
  | n + 1, v => (memWrite s off n v).writeByte (off + n) (byteOf v n)

/-! ### The end of a command -/

/-- A command that completes: `STATUS.code <- 0` (`10_state.md` R27). -/
def complete (s : State) : Host.Outcome State Fault Refusal := .next (s.setCode (completionCode .ok))

/-- `raise E`: the command ends with nothing changed but `STATUS.code`, which receives the exception's code
(`60_exceptions.md` R186). There is no saved context, no vector and no mode, so a raise is a next state of the same
block; and there is no return from an exception, for nothing is to be restored (R188). -/
def raise (e : Completion) (s : State) : Host.Outcome State Fault Refusal := .next (s.setCode (completionCode e))

end Sys2Proof.Machine
end

