-- ==== Sys2Proof/Machine/Operands.lean ====
section
/-! DEFINITION. The operand forms: the immediates of a command word (`30_encoding.md` R84), the bounds of an absolute
buffer operand (`20_memory.md` R52), the control word of a header as numbers (R77, R78), and the host address map
(`10_state.md` R33). -/

namespace Sys2Proof.Machine

/-! ### Immediates -/

/-- An access of `n` bytes at `off` is in bounds, on natural numbers without wrap (`20_memory.md` R52). -/
def inBounds (off n : Nat) : Bool := decide (off + n ≤ Config.BUFCAP)

/-- A legal cap of WIDTH (`40_width.md` R101). -/
def legalCap (w : BitVec 4) : Bool := decide (1 ≤ w.toNat) && decide (w.toNat ≤ Config.MAXW)

/-- A legal width of FENC and FDEC (`42_field.md` R125). -/
def legalWidth (w : BitVec 4) : Bool := decide (w.toNat ≤ Config.MAXW)

/-! ### The control word -/

/-- The control word read from byte 0 and byte 1 (`30_encoding.md` R77). -/
def controlOfBytes (b0 b1 : Byte) : ControlWord where
  pkgType := (Wire.PKG.get b0).setWidth 4
  msgTypeBytes := (Wire.MTB.get b0).toNat + 1
  msgIdBytes := (Wire.IDB.get b1).toNat + 1
  fwdBytes := (Wire.FWB.get b0).toNat
  bodyBytes := (Wire.BDB.get b1).toNat
  dataBytes := (Wire.DTB.get b1).toNat

/-- Byte 0 of a control word (`30_encoding.md` R78). -/
def controlByte0 (c : ControlWord) : Byte :=
  Wire.byte0 (c.pkgType.setWidth 8) (BitVec.ofNat 8 (c.msgTypeBytes - 1)) (BitVec.ofNat 8 c.fwdBytes)

/-- Byte 1 of a control word (`30_encoding.md` R78). -/
def controlByte1 (c : ControlWord) : Byte :=
  Wire.byte1 (BitVec.ofNat 8 (c.msgIdBytes - 1)) (BitVec.ofNat 8 c.bodyBytes) (BitVec.ofNat 8 c.dataBytes)

/-- `L`, the length of the header (`30_encoding.md` R76). -/
def headerLength (c : ControlWord) : Nat :=
  Config.CTRL_BYTES + c.msgTypeBytes + c.msgIdBytes + c.fwdBytes + c.bodyBytes + c.dataBytes

/-- Where each field starts (`30_encoding.md` R75). -/
def msgTypeAt (_ : ControlWord) : Nat := Config.CTRL_BYTES
/-- Where `msgId` starts (`30_encoding.md` R75). -/
def msgIdAt (c : ControlWord) : Nat := msgTypeAt c + c.msgTypeBytes
/-- Where `fwdLen` starts (`30_encoding.md` R75). -/
def fwdAt (c : ControlWord) : Nat := msgIdAt c + c.msgIdBytes
/-- Where `bodyLen` starts (`30_encoding.md` R75). -/
def bodyAt (c : ControlWord) : Nat := fwdAt c + c.fwdBytes
/-- Where `dataLen` starts (`30_encoding.md` R75). -/
def dataAt (c : ControlWord) : Nat := bodyAt c + c.bodyBytes

/-- The control word standing at buffer offset 0 (`44_parse.md` R162). -/
def controlInBuffer (s : State) : ControlWord := controlOfBytes (s.readByte 0) (s.readByte 1)

/-! ### The host address map -/

/-- A register's number (`10_state.md` R21). -/
def regIndex : Reg → Nat
  | .pkg => 0
  | .mtype => 1
  | .mid => 2
  | .fwd => 3
  | .body => 4
  | .data => 5
  | .val => 6
  | .res => 7

/-- The address of a register in the host's map (`10_state.md` R33). -/
def regAddr (r : Reg) : BitVec 9 := BitVec.ofNat 9 (regIndex r)

/-- What stands at a host address (`10_state.md` R33). -/
def locate (a : BitVec 9) : Location :=
  match a.toNat with
  | 0 => .reg .pkg
  | 1 => .reg .mtype
  | 2 => .reg .mid
  | 3 => .reg .fwd
  | 4 => .reg .body
  | 5 => .reg .data
  | 6 => .reg .val
  | 7 => .reg .res
  | 8 => .status
  | 9 => .blen
  | 10 => .cmd
  | n => if Config.BUF_BASE ≤ n ∧ n < Config.BUF_BASE + Config.BUFCAP then .buf (n - Config.BUF_BASE) else .unmapped

end Sys2Proof.Machine
end

