-- ==== Sys2Proof/Machine/Width.lean ====
section
/-! DEFINITION. The Width Calculator: WIDTH and its five pseudo-commands (`40_width.md` R100 to R103,
`30_encoding.md` R89). -/

namespace Sys2Proof.Machine

/-- The calculator's loop: test `w`, `w + 1`, ..., `n` widths in all, and fall back to the width after the last
(`40_width.md` R100). -/
def firstFit (v : Word) : Nat → Nat → Nat
  | 0, w => w
  | n + 1, w => if v.toNat < 2 ^ (8 * w) then w else firstFit v n (w + 1)

/-- `minbytes(v, cap, z)`: the least width from 1 to `cap` that holds `v`, `cap` where none does, and 0 for the value 0
where `z` allows it (`40_width.md` R100). -/
def minbytes (v : Word) (cap : Nat) (z : Bool) : Nat :=
  if z && v == 0#64 then 0 else firstFit v (cap - 1) 1

/-- WIDTH with its legality check, over which the command and the pseudo-commands are written (`40_width.md` R101). -/
def calcWidth (z : Bool) (w : BitVec 4) (s : State) : Host.Outcome State Fault Refusal :=
  if legalCap w then complete (s.setReg .res (BitVec.ofNat 64 (minbytes (s.readReg .val) w.toNat z)))
  else raise .illegalCommand s

/-- WIDTH (`40_width.md` R101). -/
def execWidth (z : Bool) (w : BitVec 4) (s : State) : Host.Outcome State Fault Refusal := calcWidth z w s

/-- WMSGID: `WIDTH 8` (`30_encoding.md` R89). -/
def execWmsgid (s : State) : Host.Outcome State Fault Refusal := calcWidth false 8#4 s

/-- WMSGTYPE: `WIDTH 4` (`30_encoding.md` R89). -/
def execWmsgtype (s : State) : Host.Outcome State Fault Refusal := calcWidth false 4#4 s

/-- WFWD: `WIDTH 3, Z` (`30_encoding.md` R89). -/
def execWfwd (s : State) : Host.Outcome State Fault Refusal := calcWidth true 3#4 s

/-- WBODY: `WIDTH 3, Z` (`30_encoding.md` R89). -/
def execWbody (s : State) : Host.Outcome State Fault Refusal := calcWidth true 3#4 s

/-- WDATA: `WIDTH 7, Z` (`30_encoding.md` R89). -/
def execWdata (s : State) : Host.Outcome State Fault Refusal := calcWidth true 7#4 s

end Sys2Proof.Machine
end

