-- ==== Sys2Proof/Machine/Build.lean ====
section
/-! DEFINITION. The Header Builder: BUILD (`43_build.md` R140 to R149). -/

namespace Sys2Proof.Machine

/-- Step 0: some value exceeds its field's cap; `MID` never does (`43_build.md` R141). -/
def overflows (s : State) : Bool :=
  decide (2 ^ Config.PKG_BITS ≤ (s.readReg .pkg).toNat) ||
  decide (2 ^ (8 * Config.CAP_MSGTYPE) ≤ (s.readReg .mtype).toNat) ||
  decide (2 ^ (8 * Config.CAP_FWD) ≤ (s.readReg .fwd).toNat) ||
  decide (2 ^ (8 * Config.CAP_BODY) ≤ (s.readReg .body).toNat) ||
  decide (2 ^ (8 * Config.CAP_DATA) ≤ (s.readReg .data).toNat)

/-- Step 1: the packet type and the five widths (`43_build.md` R142, `40_width.md` R103). -/
def controlToBuild (s : State) : ControlWord where
  pkgType := (s.readReg .pkg).setWidth 4
  msgTypeBytes := minbytes (s.readReg .mtype) Config.CAP_MSGTYPE false
  msgIdBytes := minbytes (s.readReg .mid) Config.CAP_MSGID false
  fwdBytes := minbytes (s.readReg .fwd) Config.CAP_FWD true
  bodyBytes := minbytes (s.readReg .body) Config.CAP_BODY true
  dataBytes := minbytes (s.readReg .data) Config.CAP_DATA true

/-- Steps 3 and 4: the control word at offsets 0 and 1 (`43_build.md` R143). -/
def writeControl (c : ControlWord) (s : State) : State :=
  (s.writeByte 0 (controlByte0 c)).writeByte 1 (controlByte1 c)

/-- Step 5: the five fields, each where the one before ends (`43_build.md` R144, `30_encoding.md` R75). -/
def writeFields (c : ControlWord) (s : State) : State :=
  let s1 := memWrite s (msgTypeAt c) c.msgTypeBytes (s.readReg .mtype)
  let s2 := memWrite s1 (msgIdAt c) c.msgIdBytes (s.readReg .mid)
  let s3 := memWrite s2 (fwdAt c) c.fwdBytes (s.readReg .fwd)
  let s4 := memWrite s3 (bodyAt c) c.bodyBytes (s.readReg .body)
  memWrite s4 (dataAt c) c.dataBytes (s.readReg .data)

/-- BUILD (`43_build.md` R140): reject before any write, else write the header and record its length in `BLEN` and
`RES` (R145). -/
def execBuild (s : State) : Host.Outcome State Fault Refusal :=
  if overflows s then raise .fieldOverflow s
  else
    let c := controlToBuild s
    let l := headerLength c
    complete (((writeFields c (writeControl c s)).setBlen (BitVec.ofNat 8 l)).setReg .res (BitVec.ofNat 64 l))

end Sys2Proof.Machine
end

