-- ==== Sys2Proof/Machine/Field.lean ====
section
/-! DEFINITION. The Field Encoder / Decoder: FENC and FDEC (`42_field.md` R120 to R125). The checks stand in the order
of `60_exceptions.md` R189: an illegal width before the bounds. -/

namespace Sys2Proof.Machine

/-- FENC: store the low `w` bytes of `VAL` at `off` (`42_field.md` R120). -/
def execFenc (off : BitVec 8) (w : BitVec 4) (s : State) : Host.Outcome State Fault Refusal :=
  if legalWidth w then
    if inBounds off.toNat w.toNat then complete (memWrite s off.toNat w.toNat (s.readReg .val))
    else raise .bufferBounds s
  else raise .illegalCommand s

/-- FDEC: load `w` bytes at `off`, zero-extended, into `RES` (`42_field.md` R121). -/
def execFdec (off : BitVec 8) (w : BitVec 4) (s : State) : Host.Outcome State Fault Refusal :=
  if legalWidth w then
    if inBounds off.toNat w.toNat then complete (s.setReg .res (memRead s off.toNat w.toNat))
    else raise .bufferBounds s
  else raise .illegalCommand s

end Sys2Proof.Machine
end

