-- ==== Sys2Proof/Machine/Parse.lean ====
section
/-! DEFINITION. The Header Parser: PARSE (`44_parse.md` R160 to R169). -/

namespace Sys2Proof.Machine

/-- Steps 5 and 6: read the five fields, each where the one before ends, and write the six values and the length
(`44_parse.md` R164, R165). -/
def loadHeader (c : ControlWord) (s : State) : State :=
  ((((((s.setReg .pkg (c.pkgType.setWidth 64)).setReg .mtype (memRead s (msgTypeAt c) c.msgTypeBytes)).setReg .mid
    (memRead s (msgIdAt c) c.msgIdBytes)).setReg .fwd (memRead s (fwdAt c) c.fwdBytes)).setReg .body
    (memRead s (bodyAt c) c.bodyBytes)).setReg .data (memRead s (dataAt c) c.dataBytes)).setReg .res
    (BitVec.ofNat 64 (headerLength c))

/-- PARSE (`44_parse.md` R160): the two availability checks (R161, R163), then the header's values. Widths are taken as
they stand: minimality is not checked (R168, `30_encoding.md` R80). -/
def execParse (s : State) : Host.Outcome State Fault Refusal :=
  if s.blen.toNat < Config.CTRL_BYTES then raise .incompleteHeader s
  else
    let c := controlInBuffer s
    if s.blen.toNat < headerLength c then raise .incompleteHeader s
    else complete (loadHeader c s)

end Sys2Proof.Machine
end

