-- ==== Sys2Proof/Machine/Wire.lean ====
section
/-! DEFINITION. The rows of the opcode table that are no commands of the seven: the reserved `op` 7
(`30_encoding.md` R86) and the two control bytes of a header arriving from the wire (R71, R72; log entry 4). -/

namespace Sys2Proof.Machine

/-- The reserved `op` 7 always raises `IllegalCommand` (`30_encoding.md` R86 item 2, `60_exceptions.md` R183). -/
def execReservedOp7 (_ : BitVec 13) (s : State) : Host.Outcome State Fault Refusal := raise .illegalCommand s

/-- The first control byte is received: it stands at buffer offset 0 (`30_encoding.md` R71, R78; `10_state.md` R35;
`20_memory.md` R51). No command runs, so `STATUS.code` is kept (`10_state.md` R34). -/
def execHdrByte0 (p : BitVec 4) (t f : BitVec 2) (s : State) : Host.Outcome State Fault Refusal :=
  .next (s.writeByte 0 (Wire.byte0 (p.setWidth 8) (t.setWidth 8) (f.setWidth 8)))

/-- The second control byte is received: it stands at buffer offset 1 (`30_encoding.md` R72, R78; `10_state.md` R35). -/
def execHdrByte1 (i : BitVec 3) (b : BitVec 2) (d : BitVec 3) (s : State) : Host.Outcome State Fault Refusal :=
  .next (s.writeByte 1 (Wire.byte1 (i.setWidth 8) (b.setWidth 8) (d.setWidth 8)))

end Sys2Proof.Machine
end

