-- ==== Sys2Proof/Machine/Zigzag.lean ====
section
/-! DEFINITION. The ZigZag Transform: ZZENC and ZZDEC (`41_zigzag.md` R110 to R115). -/

namespace Sys2Proof.Machine

/-- `(n << 1) ^ (n >>s 63)`, the right shift arithmetic (`41_zigzag.md` R110, R111). -/
def zzenc (n : Word) : Word := (n <<< 1) ^^^ n.sshiftRight 63

/-- `(n >> 1) ^ (0 - (n & 1))`, the right shift logical and the subtraction wrapping (`41_zigzag.md` R112). -/
def zzdec (n : Word) : Word := (n >>> 1) ^^^ (0#64 - (n &&& 1#64))

/-- ZZENC (`41_zigzag.md` R114). -/
def execZzenc (s : State) : Host.Outcome State Fault Refusal :=
  complete (s.setReg .res (zzenc (s.readReg .val)))

/-- ZZDEC (`41_zigzag.md` R115). -/
def execZzdec (s : State) : Host.Outcome State Fault Refusal :=
  complete (s.setReg .res (zzdec (s.readReg .val)))

end Sys2Proof.Machine
end

