-- ==== Sys2Proof/Machine/Dispatch.lean ====
section
/-! DEFINITION. One arm per instruction. -/

namespace Sys2Proof.Machine

def exec (i : Instr) (s : State) : Host.Outcome State Fault Refusal :=
  match i with
  | .width z w => Sys2Proof.Machine.execWidth z w s
  | .zzenc => Sys2Proof.Machine.execZzenc s
  | .zzdec => Sys2Proof.Machine.execZzdec s
  | .fenc off w => Sys2Proof.Machine.execFenc off w s
  | .fdec off w => Sys2Proof.Machine.execFdec off w s
  | .build => Sys2Proof.Machine.execBuild s
  | .parse => Sys2Proof.Machine.execParse s
  | .reservedOp7 rest => Sys2Proof.Machine.execReservedOp7 rest s
  | .wmsgid => Sys2Proof.Machine.execWmsgid s
  | .wmsgtype => Sys2Proof.Machine.execWmsgtype s
  | .wfwd => Sys2Proof.Machine.execWfwd s
  | .wbody => Sys2Proof.Machine.execWbody s
  | .wdata => Sys2Proof.Machine.execWdata s
  | .hdrByte0 p t f => Sys2Proof.Machine.execHdrByte0 p t f s
  | .hdrByte1 i0 b d => Sys2Proof.Machine.execHdrByte1 i0 b d s

end Sys2Proof.Machine
end

