-- ==== Sys2Proof/Machine/Transactions.lean ====
section
/-! DEFINITION. The host transactions (`10_state.md` R27 to R34): reads and writes through the address map, the issue of
a command by a write to `CMD`, and `Reset`; and the assembler's lines as transactions (`30_encoding.md` R88 to R90). -/

namespace Sys2Proof.Machine

/-- The value a `HostRead` returns (`10_state.md` R33). -/
def hostRead (a : BitVec 9) (s : State) : Word :=
  match locate a with
  | .reg r => s.readReg r
  | .status => s.code.setWidth 64
  | .blen => s.blen.setWidth 64
  | .cmd => 0#64
  | .buf k => (s.readByte k).setWidth 64
  | .unmapped => 0#64

/-- A host write of `BLEN`: taken when the whole value is at most `BUFCAP`, else ignored (`10_state.md` R28). -/
def hostSetBlen (v : Word) (s : State) : State :=
  if v.toNat ≤ Config.BUFCAP then s.setBlen (v.setWidth 8) else s

/-- The write of a command's code to the host, when the command has ended (`10_state.md` R29). -/
def returnCode : Host.Outcome State Fault Refusal → Host.Outcome State Fault Refusal
  | .next s => .next (s.pushReply (.code s.code))
  | .fault r => .fault r
  | .refused r => .refused r

/-- A write to `CMD` decodes the value and runs the command; a value that decodes to nothing raises `IllegalCommand`
(`10_state.md` R29, `30_encoding.md` R86). -/
def runCommand (v : Word) (s : State) : Host.Outcome State Fault Refusal :=
  match decode (.command v) with
  | .ok i => exec i s
  | .error _ => raise .illegalCommand s

/-- `HostWrite(a, v)` (`10_state.md` R33). A write to `STATUS` or to an unmapped address is ignored (R27, R34). -/
def hostWrite (a : BitVec 9) (v : Word) (s : State) : Host.Outcome State Fault Refusal :=
  match locate a with
  | .reg r => .next (s.setReg r v)
  | .status => .next s
  | .blen => .next (hostSetBlen v s)
  | .cmd => returnCode (runCommand v s)
  | .buf k => .next (s.writeByte k (v.setWidth 8))
  | .unmapped => .next s

/-- `Reset`: the reset state, with fresh free values for the buffer; the host's program and its record go on
(`10_state.md` R36, `70_reset_and_hazards.md` R210; log entries 1, 3). -/
def hostReset (s : State) : State :=
  { State.reset with resets := s.resets + 1, pending := s.pending, replies := s.replies }

/-- One transaction of the host (`10_state.md` R32). -/
def transact (tx : HostTx) (s : State) : Host.Outcome State Fault Refusal :=
  match tx with
  | .write a v => hostWrite a v s
  | .read a => .next (s.pushReply (.value (hostRead a s)))
  | .reset => .next (hostReset s)

/-- The host performs the first transaction of its program; with none left, the block does nothing
(`70_reset_and_hazards.md` R211, R212, R223). -/
def perform (s : State) : Host.Outcome State Fault Refusal :=
  match s.pending with
  | [] => .next s
  | tx :: rest => transact tx { s with pending := rest }

/-- The transaction that carries an encoded instruction to the block: a command word is written to `CMD` (R29), a
header byte to its buffer offset (`10_state.md` R35). -/
def carrier : Encoding → HostTx
  | .command v => .write Config.CMD_ADDR v
  | .wire0 b => .write (BitVec.ofNat 9 Config.BUF_BASE) (b.setWidth 64)
  | .wire1 b => .write (BitVec.ofNat 9 (Config.BUF_BASE + 1)) (b.setWidth 64)

/-- `PUTB`'s address, `0x100 + off` (`30_encoding.md` R90). DESIGN CHOICE (log entry 9): `off` is 0 to 255, since `0x100 +
off` with a greater one is no 9-bit address (`10_state.md` R32) and R90 gives `off` no range. -/
def byteAddr (off : BitVec 8) : BitVec 9 := 1#1 ++ off

/-- `PUTB 0, b0` ... `PUTB n-1, bn-1`, from offset `k` on (`30_encoding.md` R90). DESIGN CHOICE (log entry 9): a `LOAD` of
more than 256 bytes would need `PUTB 256` and up, for which the spec has no transaction; the model takes such an offset
modulo 256, so these bytes overwrite `buf[0]` onwards. -/
def loadBytes : Nat → List Byte → List HostTx
  | _, [] => []
  | k, b :: bs => .write (byteAddr (BitVec.ofNat 8 k)) (b.setWidth 64) :: loadBytes (k + 1) bs

/-- The transactions an assembler line stands for (`30_encoding.md` R88 to R90; a `LOAD` longer than the address space
holds: log entry 9). -/
def assemble : AsmLine → List HostTx
  | .instr i => [carrier (encode i)]
  | .cmd v => [.write Config.CMD_ADDR v]
  | .set r v => [.write (regAddr r) v]
  | .get r => [.read (regAddr r)]
  | .putb off v => [.write (byteAddr off) v]
  | .getb off => [.read (byteAddr off)]
  | .setlen v => [.write Config.BLEN_ADDR v]
  | .getlen => [.read Config.BLEN_ADDR]
  | .getst => [.read Config.STATUS_ADDR]
  | .reset => [.reset]
  | .load bs => loadBytes 0 bs ++ [.write Config.BLEN_ADDR (BitVec.ofNat 64 bs.length)]

end Sys2Proof.Machine
end

