-- ==== Sys2Proof/Machine/Step.lean ====
section
/-! DEFINITION. One step: one host transaction, a whole command included (`70_reset_and_hazards.md` R221). -/

namespace Sys2Proof.Machine

/-- The block performs the next transaction of the host's program (R7, R62, R223). -/
def step (s : State) : Host.Outcome State Fault Refusal := perform s

/-- The state in which the host's next transaction carries the given table word: a command word to `CMD`, a header byte
to buffer offset 0 (log entries 3, 5). The rest of the program stands behind it. -/
def State.withFetchWord (s : State) (nbits w : Nat) : State :=
  { s with pending := carrier (tableEncoding nbits w) :: s.pending }

end Sys2Proof.Machine
end

