-- ==== Sys2Proof/Safety.lean ====
section
/-! DEFINITION. The terms claims are stated in: the invariant of the machine, and the spec's own notions (minimal width,
a field in the buffer, an illegal command value, the widths a control word announces, the frame table) written with
arithmetic, apart from the definitions the machine runs on. -/

namespace Sys2Proof.Machine

/-- What every step keeps: the buffer's canonical form (log entry 2), `BLEN` at most `BUFCAP` (`10_state.md` R28) and no
code above 4 in `STATUS` (R27). -/
def State.Inv (s : State) : Prop :=
  Memory.wf s.buf = true ∧ s.blen.toNat ≤ Config.BUFCAP ∧ s.code.toNat ≤ 4

/-- No condition of `43_build.md` R141 holds. -/
def FieldsFit (s : State) : Prop :=
  s.pkg.toNat < 16 ∧ s.mtype.toNat < 2 ^ 32 ∧ s.fwd.toNat < 2 ^ 24 ∧ s.body.toNat < 2 ^ 24 ∧ s.data.toNat < 2 ^ 56

/-- `r` is 0 for the value 0 where `z` allows it, else the least width from 1 to `cap` that holds `v`, else `cap`
(`40_width.md` R100). -/
def IsMinimalWidth (v cap : Nat) (z : Bool) (r : Nat) : Prop :=
  if z = true ∧ v = 0 then r = 0
  else 1 ≤ r ∧ r ≤ cap ∧ (r < cap → v < 2 ^ (8 * r)) ∧ ∀ w, 1 ≤ w → w < r → 2 ^ (8 * w) ≤ v

/-- The `n` bytes at `o` hold `v`, little-endian, with nothing of `v` outside them (`20_memory.md` R53, R55). -/
def HoldsField (s : State) (o n : Nat) (v : Word) : Prop :=
  v.toNat < 2 ^ (8 * n) ∧ ∀ k, k < n → (s.readByte (o + k)).toNat = v.toNat / 2 ^ (8 * k) % 256

/-! ### The command value by arithmetic (`30_encoding.md` R83, R85, R86) -/

/-- Bits 15:13. -/
def opOf (v : Word) : Nat := v.toNat / 8192 % 8
/-- Bit 12. -/
def zOf (v : Word) : Nat := v.toNat / 4096 % 2
/-- Bits 11:8. -/
def wOf (v : Word) : Nat := v.toNat / 256 % 16
/-- Bits 7:0. -/
def offOf (v : Word) : Nat := v.toNat % 256

/-- A must-be-zero field of the `op` is not zero (R85, R86 item 3). -/
def mbzViolated (v : Word) : Prop :=
  (opOf v = 0 ∧ offOf v ≠ 0) ∨
  ((opOf v = 1 ∨ opOf v = 2 ∨ opOf v = 5 ∨ opOf v = 6) ∧ (zOf v ≠ 0 ∨ wOf v ≠ 0 ∨ offOf v ≠ 0)) ∨
  ((opOf v = 3 ∨ opOf v = 4) ∧ zOf v ≠ 0)

/-- The five conditions of R86. -/
def IllegalValue (v : Word) : Prop :=
  2 ^ 16 ≤ v.toNat ∨ opOf v = 7 ∨ mbzViolated v ∨ (opOf v = 0 ∧ (wOf v = 0 ∨ 8 < wOf v)) ∨
  ((opOf v = 3 ∨ opOf v = 4) ∧ 8 < wOf v)

/-- The seven commands of R85. -/
def isSeven : Instr → Bool
  | .width _ _ | .zzenc | .zzdec | .fenc _ _ | .fdec _ _ | .build | .parse => true
  | .reservedOp7 _ | .wmsgid | .wmsgtype | .wfwd | .wbody | .wdata => false
  | .hdrByte0 _ _ _ | .hdrByte1 _ _ _ => false

/-! ### The control word by arithmetic (`30_encoding.md` R71, R72, R76, R77) -/

/-- `pkgType` announced by the buffer's control word. -/
def wirePkg (s : State) : Nat := (s.readByte 0).toNat / 16
/-- `msgTypeBytes` announced by the buffer's control word. -/
def wireMsgType (s : State) : Nat := (s.readByte 0).toNat / 4 % 4 + 1
/-- `fwdBytes` announced by the buffer's control word. -/
def wireFwd (s : State) : Nat := (s.readByte 0).toNat % 4
/-- `msgIdBytes` announced by the buffer's control word. -/
def wireMsgId (s : State) : Nat := (s.readByte 1).toNat / 32 + 1
/-- `bodyBytes` announced by the buffer's control word. -/
def wireBody (s : State) : Nat := (s.readByte 1).toNat / 8 % 4
/-- `dataBytes` announced by the buffer's control word. -/
def wireData (s : State) : Nat := (s.readByte 1).toNat % 8
/-- `L` announced by the buffer's control word. -/
def wireLength (s : State) : Nat :=
  2 + wireMsgType s + wireMsgId s + wireFwd s + wireBody s + wireData s

/-! ### What a command may touch (`10_state.md` R22) -/

/-- The "W" entries of R22's table, over the registers; the pseudo-commands are WIDTH. -/
def mayWriteReg : Instr → Reg → Bool
  | .width _ _, r | .wmsgid, r | .wmsgtype, r | .wfwd, r | .wbody, r | .wdata, r => decide (r = .res)
  | .zzenc, r | .zzdec, r | .fdec _ _, r | .build, r => decide (r = .res)
  | .parse, r => decide (r ≠ .val)
  | .fenc _ _, _ | .reservedOp7 _, _ | .hdrByte0 _ _ _, _ | .hdrByte1 _ _ _, _ => false

/-- A byte an instruction may store to in the state it starts from: FENC its `w` bytes at `off`, BUILD the header's
bytes (`10_state.md` R22), a received control byte its own. -/
def mayStoreAt (i : Instr) (s : State) (k : Nat) : Prop :=
  match i with
  | .fenc off w => off.toNat ≤ k ∧ k < off.toNat + w.toNat
  | .build => k < headerLength (controlToBuild s)
  | .hdrByte0 _ _ _ => k = 0
  | .hdrByte1 _ _ _ => k = 1
  | .width _ _ | .zzenc | .zzdec | .fdec _ _ | .parse | .reservedOp7 _ => False
  | .wmsgid | .wmsgtype | .wfwd | .wbody | .wdata => False

/-- The two states hold the same registers, the same `BLEN` and the same buffer bytes. -/
def SameInputs (s t : State) : Prop :=
  (∀ r, s.readReg r = t.readReg r) ∧ s.blen = t.blen ∧ ∀ k, k < Config.BUFCAP → s.readByte k = t.readByte k

end Sys2Proof.Machine
end

