-- ==== Sys2Proof/Certificates/Slice0/Obligations.lean ====
section
/-! DEFINITION. The statements for the provers. Notions they use stand in `Sys2Proof/Safety.lean`. The fields `pending`,
`replies` and `resets` of a state are the model's own (log entries 1, 3); every other field is the spec's. -/

open Sys2Proof Sys2Proof.Machine
open Host (Outcome)

/-! ### Reset and the host's transactions -/

/-- R36: after reset every register, `STATUS.code` and `BLEN` is 0. The buffer's bytes are unspecified, so whatever the
buffer holds, a PARSE straight after reset ends in `IncompleteHeader` and a BUILD builds the all-zero header
`00 00 00 00`. -/
def Obligations.ResetStateAsSpecified : Prop :=
  (∀ r, State.reset.readReg r = 0#64) ∧ State.reset.code = 0#3 ∧ State.reset.blen = 0#8 ∧
  ∀ b : Memory,
    exec .parse { State.reset with buf := b } = .next { State.reset with buf := b, code := 1#3 } ∧
    ∃ t, exec .build { State.reset with buf := b } = .next t ∧ t.code = 0#3 ∧ t.blen = 4#8 ∧
      ∀ k, k < 4 → t.readByte k = 0#8

/-- R210: a `Reset` transaction puts the block in the reset state from any state. That the host's remaining program and
its record go on is the model's choice (log entry 3). -/
def Obligations.ResetTransactionClearsBlock : Prop :=
  ∀ (s : State) (rest : List HostTx), s.pending = .reset :: rest →
    ∃ t, step s = .next t ∧ (∀ r, t.readReg r = 0#64) ∧ t.code = 0#3 ∧ t.blen = 0#8 ∧
      t.pending = rest ∧ t.replies = s.replies

/-- R211: the block does nothing on its own, and a `HostRead` changes none of its state. That the program is a list in
the state, and a step with none left is idle, is the model's choice (log entry 3). -/
def Obligations.BlockDoesNothingOnItsOwn : Prop :=
  (∀ s : State, s.pending = [] → step s = .next s) ∧
  ∀ (s : State) (a : BitVec 9) (rest : List HostTx), s.pending = .read a :: rest →
    ∃ v, step s = .next { s with pending := rest, replies := .value v :: s.replies }

/-- R33, R34: the host address map, address by address, reads and writes. -/
def Obligations.HostAddressMap : Prop :=
  (∀ (s : State) (a : BitVec 9) (rest : List HostTx), s.pending = .read a :: rest →
    ∃ v, step s = .next { s with pending := rest, replies := .value v :: s.replies } ∧
      (a.toNat = 0 → v = s.pkg) ∧ (a.toNat = 1 → v = s.mtype) ∧ (a.toNat = 2 → v = s.mid) ∧
      (a.toNat = 3 → v = s.fwd) ∧ (a.toNat = 4 → v = s.body) ∧ (a.toNat = 5 → v = s.data) ∧
      (a.toNat = 6 → v = s.val) ∧ (a.toNat = 7 → v = s.res) ∧
      (a.toNat = 0x008 → v.toNat = s.code.toNat) ∧ (a.toNat = 0x009 → v.toNat = s.blen.toNat) ∧
      (a.toNat = 0x00A → v = 0#64) ∧ (0x00B ≤ a.toNat ∧ a.toNat < 0x100 → v = 0#64) ∧
      (∀ k, k < Config.BUFCAP → a.toNat = 0x100 + k → v.toNat = (s.readByte k).toNat) ∧
      (0x100 + Config.BUFCAP ≤ a.toNat → v = 0#64)) ∧
  (∀ (s : State) (a : BitVec 9) (v : Word) (rest : List HostTx), s.pending = .write a v :: rest →
    (a.toNat = 0 → step s = .next { s with pending := rest, pkg := v }) ∧
    (a.toNat = 1 → step s = .next { s with pending := rest, mtype := v }) ∧
    (a.toNat = 2 → step s = .next { s with pending := rest, mid := v }) ∧
    (a.toNat = 3 → step s = .next { s with pending := rest, fwd := v }) ∧
    (a.toNat = 4 → step s = .next { s with pending := rest, body := v }) ∧
    (a.toNat = 5 → step s = .next { s with pending := rest, data := v }) ∧
    (a.toNat = 6 → step s = .next { s with pending := rest, val := v }) ∧
    (a.toNat = 7 → step s = .next { s with pending := rest, res := v }) ∧
    (a.toNat = 0x008 → step s = .next { s with pending := rest }) ∧
    (a.toNat = 0x009 → step s = .next
      { s with pending := rest, blen := if v.toNat ≤ Config.BUFCAP then BitVec.ofNat 8 v.toNat else s.blen }) ∧
    (a.toNat = 0x00A → ∀ i, decode (.command v) = .ok i → ∀ t, exec i { s with pending := rest } = .next t →
      step s = .next { t with replies := .code t.code :: t.replies }) ∧
    (a.toNat = 0x00A → ∀ e, decode (.command v) = .error e →
      step s = .next { s with pending := rest, code := 3#3, replies := .code 3#3 :: s.replies }) ∧
    (0x00B ≤ a.toNat ∧ a.toNat < 0x100 → step s = .next { s with pending := rest }) ∧
    (∀ k, k < Config.BUFCAP → a.toNat = 0x100 + k → ∃ t, step s = .next t ∧
      t = { s with pending := rest, buf := t.buf } ∧ t.readByte k = BitVec.ofNat 8 v.toNat ∧
      ∀ j, j ≠ k → t.readByte j = s.readByte j) ∧
    (0x100 + Config.BUFCAP ≤ a.toNat → step s = .next { s with pending := rest }))

/-- R59 and R62 on one byte: a byte the host writes reads back as `v[7:0]`, and any other byte as before. -/
def Obligations.ByteReadsBackLastWrite : Prop :=
  ∀ (s : State) (k j : Nat) (v : Word) (rest : List HostTx), k < Config.BUFCAP → j < Config.BUFCAP →
    s.pending = .write (BitVec.ofNat 9 (0x100 + k)) v :: .read (BitVec.ofNat 9 (0x100 + j)) :: rest →
    ∃ t u, step s = .next t ∧ step t = .next u ∧
      u.replies = .value (if j = k then BitVec.ofNat 64 (v.toNat % 256)
        else BitVec.ofNat 64 (s.readByte j).toNat) :: s.replies

/-- R34: no transaction but a write to `CMD` (and `Reset`) changes `STATUS.code`. -/
def Obligations.OnlyCommandsChangeStatus : Prop :=
  ∀ (s t : State) (tx : HostTx) (rest : List HostTx), s.pending = tx :: rest → tx ≠ .reset →
    (∀ v, tx ≠ .write 0x00A#9 v) → step s = .next t → t.code = s.code

/-- R90, R35: the transactions of a `LOAD` line, performed one after the other, put its bytes at offset 0 onwards and
their count in `BLEN`, and change nothing else of the block. -/
def Obligations.LoadLineFillsBuffer : Prop :=
  ∀ (s : State) (bytes : List Byte) (rest : List HostTx), bytes.length ≤ Config.BUFCAP →
    s.pending = assemble (.load bytes) ++ rest →
    ∃ t, Host.Core.run Sys2Proof.core (bytes.length + 1) s = .next t ∧
      t = { s with pending := rest, blen := BitVec.ofNat 8 bytes.length, buf := t.buf } ∧
      ∀ k, t.readByte k = bytes.getD k (s.readByte k)

/-! ### Decoding and the step -/

/-- R29: a write to `CMD` decodes the value, executes the command and returns the code it leaves (a value that decodes to
nothing is `IllegalCommand`, R86); a read of `CMD` returns 0 and has no effect. -/
def Obligations.StepRunsDecodedCommand : Prop :=
  (∀ (s : State) (v : Word) (rest : List HostTx) (i : Instr),
    s.pending = .write 0x00A#9 v :: rest → decode (.command v) = .ok i →
    step s = match exec i { s with pending := rest } with
      | .next t => .next { t with replies := .code t.code :: t.replies }
      | .fault r => .fault r
      | .refused r => .refused r) ∧
  (∀ (s : State) (v : Word) (rest : List HostTx) (e : Reject),
    s.pending = .write 0x00A#9 v :: rest → decode (.command v) = .error e →
    step s = .next { s with pending := rest, code := 3#3, replies := .code 3#3 :: s.replies }) ∧
  ∀ (s : State) (rest : List HostTx), s.pending = .read 0x00A#9 :: rest →
    step s = .next { s with pending := rest, replies := .value 0#64 :: s.replies }

/-- A header byte that the host puts at offset 0 or 1 is the instruction the decoder reads from that byte, executed. That
a control byte's row of the table is executed at all is the model's choice (log entry 4). -/
def Obligations.StepReceivesControlByte : Prop :=
  ∀ (s : State) (v : Word) (rest : List HostTx),
    (s.pending = .write 0x100#9 v :: rest →
      ∃ i, decode (.wire0 (v.setWidth 8)) = .ok i ∧ step s = exec i { s with pending := rest }) ∧
    (s.pending = .write 0x101#9 v :: rest →
      ∃ i, decode (.wire1 (v.setWidth 8)) = .ok i ∧ step s = exec i { s with pending := rest })

/-- R86, R183: a value written to `CMD` for which one of the five conditions holds raises `IllegalCommand` and does
nothing else; any other value selects one of the seven commands. -/
def Obligations.IllegalValuesRaise : Prop :=
  ∀ (s : State) (v : Word) (rest : List HostTx), s.pending = .write 0x00A#9 v :: rest →
    (IllegalValue v →
      step s = .next { s with pending := rest, code := 3#3, replies := .code 3#3 :: s.replies }) ∧
    (¬ IllegalValue v → ∃ i, decode (.command v) = .ok i ∧ isSeven i = true ∧ i.wellFormed = true)

/-- Every well-formed instruction, and every word of the reserved `op`, decodes from its own words: to itself, a
pseudo-command to its WIDTH (R85, R86, R89). -/
def Obligations.EncodeThenDecode : Prop :=
  ∀ i : Instr, (i.wellFormed = true ∨ ∃ r, i = .reservedOp7 r) → decode (encode i) = .ok i.expand

/-- Whatever the decoder accepts, the encoder gives back bit for bit: no two encodings mean the same instruction, and no
bit is dropped (R79, R85). -/
def Obligations.DecodeThenEncode : Prop :=
  ∀ (e : Encoding) (i : Instr), decode e = .ok i → encode i = e

/-- A few words written out from the encodings of R71, R72, R85 and R88. -/
def Obligations.WordsOfTheSpecDecode : Prop :=
  decode (.command 0b0000100000000000#64) = .ok (.width false 8#4) ∧
  decode (.command 0b0001001100000000#64) = .ok (.width true 3#4) ∧
  decode (.command 0b0010000000000000#64) = .ok .zzenc ∧
  decode (.command 0b0100000000000000#64) = .ok .zzdec ∧
  decode (.command 0b0110001100001001#64) = .ok (.fenc 9#8 3#4) ∧
  decode (.command 0b1000001100001001#64) = .ok (.fdec 9#8 3#4) ∧
  decode (.command 0b1010000000000000#64) = .ok .build ∧
  decode (.command 0b1100000000000000#64) = .ok .parse ∧
  decode (.wire0 0b00100100#8) = .ok (.hdrByte0 2#4 1#2 0#2) ∧
  decode (.wire1 0b10011010#8) = .ok (.hdrByte1 4#3 3#2 2#3)

/-- R88: the transaction of a command line, performed, runs that command and returns its code; for a pseudo-command as
for any other. -/
def Obligations.CommandLineRunsItsCommand : Prop :=
  ∀ (s t : State) (i : Instr) (rest : List HostTx), i.wellFormed = true → i.isCommand = true →
    s.pending = assemble (.instr i) ++ rest → exec i { s with pending := rest } = .next t →
    step s = .next { t with replies := .code t.code :: t.replies }

/-! ### Invariants and whole-machine rules -/

/-- Every step keeps the invariant: canonical buffer (the model's choice, log entry 2), `BLEN` at most `BUFCAP` (R28), no
code above 4 (R27). -/
def Obligations.StepKeepsInvariant : Prop :=
  ∀ s t : State, s.Inv → step s = .next t → t.Inv

/-- The invariant holds after reset (its canonical buffer is the model's choice, log entry 2). -/
def Obligations.ResetMeetsInvariant : Prop := State.reset.Inv

/-- R187, R222: every transaction completes; the block is never halted and never stops with a fault or a refusal. -/
def Obligations.EveryStepCompletes : Prop := ∀ s : State, ∃ t, step s = .next t

/-- R186: a command that ends in an exception changes nothing but `STATUS.code`, and the write to `CMD` returns its
code. -/
def Obligations.ExceptionsChangeOnlyStatus : Prop :=
  (∀ (i : Instr) (s : State), i.isCommand = true →
    ∃ t, exec i s = .next t ∧ (t.code ≠ 0#3 → t = { s with code := t.code })) ∧
  ∀ (s : State) (v : Word) (rest : List HostTx), s.pending = .write 0x00A#9 v :: rest →
    ∃ t, step s = .next t ∧
      (t.code ≠ 0#3 → t = { s with pending := rest, code := t.code, replies := .code t.code :: s.replies })

/-- R185: which command can end with which code. -/
def Obligations.CodesEachCommandCanReturn : Prop :=
  ∀ (s : State) (v : Word) (rest : List HostTx), s.pending = .write 0x00A#9 v :: rest →
    ∃ t c, step s = .next t ∧ t.code = c ∧ t.replies = .code c :: s.replies ∧
      (2 ^ 16 ≤ v.toNat ∨ opOf v = 7 → c = 3#3) ∧
      (v.toNat < 2 ^ 16 →
        (opOf v = 0 → c = 0#3 ∨ c = 3#3) ∧
        (opOf v = 1 ∨ opOf v = 2 → c = 0#3 ∨ (c = 3#3 ∧ mbzViolated v)) ∧
        (opOf v = 3 ∨ opOf v = 4 → c = 0#3 ∨ c = 3#3 ∨ c = 4#3) ∧
        (opOf v = 5 → c = 0#3 ∨ c = 2#3 ∨ (c = 3#3 ∧ mbzViolated v)) ∧
        (opOf v = 6 → c = 0#3 ∨ c = 1#3 ∨ (c = 3#3 ∧ mbzViolated v)))

/-- R22, the frame of every instruction: registers outside the "W" column are kept, `BLEN` is kept but for BUILD, every
byte outside the stored ones is kept, and no instruction touches the host's program and record (the model's own, log
entry 3). That a control byte's row keeps `STATUS.code` is the model's choice (log entry 4). -/
def Obligations.InstructionFrame : Prop :=
  ∀ (i : Instr) (s t : State), exec i s = .next t →
    (∀ r, mayWriteReg i r = false → t.readReg r = s.readReg r) ∧ (i ≠ .build → t.blen = s.blen) ∧
    (i.isCommand = false → t.code = s.code) ∧
    (∀ k, ¬ mayStoreAt i s k → t.readByte k = s.readByte k) ∧
    t.pending = s.pending ∧ t.replies = s.replies ∧ t.resets = s.resets

/-- R31: a command's results depend on nothing but the registers, `BLEN` and the buffer; not on `STATUS`, and not on what
ran before. -/
def Obligations.NoHiddenState : Prop :=
  ∀ (i : Instr) (s s' : State), i.isCommand = true → SameInputs s s' →
    ∃ t t', exec i s = .next t ∧ exec i s' = .next t' ∧ t.code = t'.code ∧ SameInputs t t'

/-- R27: `STATUS.code` is overwritten by every command and is not sticky: an earlier code makes no difference. -/
def Obligations.StatusIsNotSticky : Prop :=
  ∀ (i : Instr) (s : State) (c : BitVec 3), i.isCommand = true → exec i { s with code := c } = exec i s

/-! ### WIDTH and its pseudo-commands -/

/-- R100, R101: WIDTH leaves in `RES` the least width from 1 to the cap that holds `VAL`, the cap where none does, and 0
for the value 0 where `Z` is given; nothing else but `STATUS.code` changes. An illegal cap raises `IllegalCommand`. -/
def Obligations.WidthGivesMinimalWidth : Prop :=
  ∀ (s : State) (z : Bool) (w : BitVec 4),
    (1 ≤ w.toNat ∧ w.toNat ≤ 8 → ∃ r, IsMinimalWidth s.val.toNat w.toNat z r ∧
      exec (.width z w) s = .next { s with res := BitVec.ofNat 64 r, code := 0#3 }) ∧
    (w.toNat = 0 ∨ 8 < w.toNat → exec (.width z w) s = .next { s with code := 3#3 })

/-- R104: range, sufficiency, minimality, monotonicity and thresholds of `minbytes`. -/
def Obligations.MinbytesLaws : Prop :=
  ∀ (v v' : Word) (cap : Nat) (z : Bool), 1 ≤ cap → cap ≤ 8 →
    (minbytes v cap z ≤ cap ∧ (minbytes v cap z = 0 → z = true ∧ v = 0#64)) ∧
    (v.toNat < 2 ^ (8 * cap) → v.toNat < 2 ^ (8 * minbytes v cap z)) ∧
    ((2 ≤ minbytes v cap z → 2 ^ (8 * (minbytes v cap z - 1)) ≤ v.toNat) ∧
      (minbytes v cap z = 1 → z = true → 1 ≤ v.toNat)) ∧
    (v.toNat ≤ v'.toNat → minbytes v cap z ≤ minbytes v' cap z) ∧
    ((∀ r, 1 ≤ r → r ≤ 8 →
        (minbytes v 8 false = r ↔ (r = 1 ∨ 2 ^ (8 * (r - 1)) ≤ v.toNat) ∧ v.toNat < 2 ^ (8 * r))) ∧
      (2 ^ (8 * (cap - 1)) ≤ v.toNat → minbytes v cap false = cap) ∧
      (v.toNat < 2 ^ (8 * (cap - 1)) → minbytes v cap false = minbytes v 8 false))

/-- R89: each pseudo-command's word is the word of its WIDTH, and it does what that WIDTH does. -/
def Obligations.PseudoCommandsAreWidth : Prop :=
  encode .wmsgid = .command 0x0800#64 ∧ encode .wmsgtype = .command 0x0400#64 ∧ encode .wfwd = .command 0x1300#64 ∧
  encode .wbody = .command 0x1300#64 ∧ encode .wdata = .command 0x1700#64 ∧
  ∀ s : State, ∃ rId rType rFwd rBody rData,
    IsMinimalWidth s.val.toNat 8 false rId ∧
    exec .wmsgid s = .next { s with res := BitVec.ofNat 64 rId, code := 0#3 } ∧
    exec .wmsgid s = exec (.width false 8#4) s ∧
    IsMinimalWidth s.val.toNat 4 false rType ∧
    exec .wmsgtype s = .next { s with res := BitVec.ofNat 64 rType, code := 0#3 } ∧
    exec .wmsgtype s = exec (.width false 4#4) s ∧
    IsMinimalWidth s.val.toNat 3 true rFwd ∧
    exec .wfwd s = .next { s with res := BitVec.ofNat 64 rFwd, code := 0#3 } ∧
    exec .wfwd s = exec (.width true 3#4) s ∧
    IsMinimalWidth s.val.toNat 3 true rBody ∧
    exec .wbody s = .next { s with res := BitVec.ofNat 64 rBody, code := 0#3 } ∧
    exec .wbody s = exec (.width true 3#4) s ∧
    IsMinimalWidth s.val.toNat 7 true rData ∧
    exec .wdata s = .next { s with res := BitVec.ofNat 64 rData, code := 0#3 } ∧
    exec .wdata s = exec (.width true 7#4) s

/-! ### ZZENC and ZZDEC -/

/-- R110, R111, R114: ZZENC in bits, the fill following bit 63, and in the signed reading: `2 s`, or `-2 s - 1` for a
negative `s`. Nothing but `RES` and `STATUS.code` changes. -/
def Obligations.ZzencFollowsSignedReading : Prop :=
  ∀ s : State, ∃ r, exec .zzenc s = .next { s with res := r, code := 0#3 } ∧
    r = (s.val <<< 1) ^^^ (if s.val.toNat < 2 ^ 63 then 0#64 else 0xFFFFFFFFFFFFFFFF#64) ∧
    (0 ≤ s.val.toInt → (r.toNat : Int) = 2 * s.val.toInt) ∧
    (s.val.toInt < 0 → (r.toNat : Int) = -2 * s.val.toInt - 1)

/-- R112, R115: ZZDEC in bits and in the signed reading of its result. Nothing but `RES` and `STATUS.code` changes. -/
def Obligations.ZzdecUndoesZigzag : Prop :=
  ∀ s : State, ∃ r, exec .zzdec s = .next { s with res := r, code := 0#3 } ∧
    r = (s.val >>> 1) ^^^ (if s.val.toNat % 2 = 0 then 0#64 else 0xFFFFFFFFFFFFFFFF#64) ∧
    (s.val.toNat % 2 = 0 → r.toInt = (s.val.toNat / 2 : Nat)) ∧
    (s.val.toNat % 2 = 1 → r.toInt = -((s.val.toNat + 1) / 2 : Nat))

/-- R113: the two maps are inverse to each other on every 64-bit pattern, and the images and the signed readings of
the five named patterns. -/
def Obligations.ZigzagIsBijection : Prop :=
  (∀ x : Word, zzdec (zzenc x) = x) ∧ (∀ y : Word, zzenc (zzdec y) = y) ∧
  zzenc 0x0000000000000000#64 = 0x0000000000000000#64 ∧ zzenc 0x0000000000000001#64 = 0x0000000000000002#64 ∧
  zzenc 0xFFFFFFFFFFFFFFFF#64 = 0x0000000000000001#64 ∧ zzenc 0x8000000000000000#64 = 0xFFFFFFFFFFFFFFFF#64 ∧
  zzenc 0x7FFFFFFFFFFFFFFF#64 = 0xFFFFFFFFFFFFFFFE#64 ∧
  (0x0000000000000000#64).toInt = 0 ∧ (0x0000000000000001#64).toInt = 1 ∧ (0xFFFFFFFFFFFFFFFF#64).toInt = -1 ∧
  (0x8000000000000000#64).toInt = -2 ^ 63 ∧ (0x7FFFFFFFFFFFFFFF#64).toInt = 2 ^ 63 - 1

/-! ### FENC and FDEC -/

/-- R120, R122, R125: FENC stores the low `w` bytes of `VAL` at `off`, little-endian, dropping the others, and changes
no other byte and no register; an illegal width, then an access beyond the buffer, raises before any store. -/
def Obligations.FencStoresLowBytes : Prop :=
  ∀ (s : State) (off : BitVec 8) (w : BitVec 4),
    (w.toNat ≤ 8 → off.toNat + w.toNat ≤ Config.BUFCAP →
      ∃ t, exec (.fenc off w) s = .next t ∧ t = { s with buf := t.buf, code := 0#3 } ∧
        ∀ k, (t.readByte k).toNat =
          if off.toNat ≤ k ∧ k < off.toNat + w.toNat then s.val.toNat / 2 ^ (8 * (k - off.toNat)) % 256
          else (s.readByte k).toNat) ∧
    (8 < w.toNat → exec (.fenc off w) s = .next { s with code := 3#3 }) ∧
    (w.toNat ≤ 8 → Config.BUFCAP < off.toNat + w.toNat → exec (.fenc off w) s = .next { s with code := 4#3 })

/-- R121, R125: FDEC leaves in `RES` the value the `w` bytes at `off` hold, zero-extended, and changes nothing else but
`STATUS.code`; an illegal width, then an access beyond the buffer, raises. -/
def Obligations.FdecLoadsZeroExtended : Prop :=
  ∀ (s : State) (off : BitVec 8) (w : BitVec 4),
    (w.toNat ≤ 8 → off.toNat + w.toNat ≤ Config.BUFCAP →
      ∃ r, exec (.fdec off w) s = .next { s with res := r, code := 0#3 } ∧ HoldsField s off.toNat w.toNat r) ∧
    (8 < w.toNat → exec (.fdec off w) s = .next { s with code := 3#3 }) ∧
    (w.toNat ≤ 8 → Config.BUFCAP < off.toNat + w.toNat → exec (.fdec off w) s = .next { s with code := 4#3 })

/-- R123: FENC then FDEC at the same place gives `VAL mod 2^(8w)`; FDEC then FENC of the result leaves the bytes as they
were. -/
def Obligations.FieldCommandsAreInverse : Prop :=
  ∀ (s : State) (off : BitVec 8) (w : BitVec 4), w.toNat ≤ 8 → off.toNat + w.toNat ≤ Config.BUFCAP →
    (∃ t u, exec (.fenc off w) s = .next t ∧ exec (.fdec off w) t = .next u ∧
      u.res.toNat = s.val.toNat % 2 ^ (8 * w.toNat)) ∧
    (∃ t u, exec (.fdec off w) s = .next t ∧ exec (.fenc off w) { t with val := t.res } = .next u ∧
      ∀ k, u.readByte k = s.readByte k)

/-- R54: a narrower read inside a written range, and a host read of one of its bytes. -/
def Obligations.MixedWidthReadsSeeSameBytes : Prop :=
  ∀ (s : State) (off n j m : Nat) (v : Word), n ≤ 8 → off + n ≤ Config.BUFCAP → j + m ≤ n →
    (memRead (memWrite s off n v) (off + j) m).toNat = v.toNat / 2 ^ (8 * j) % 2 ^ (8 * m) ∧
    (j < n → (hostRead (BitVec.ofNat 9 (0x100 + (off + j))) (memWrite s off n v)).toNat
      = v.toNat / 2 ^ (8 * j) % 256)

/-! ### BUILD -/

/-- R141, R182: BUILD raises `FieldOverflow`, changing nothing else, exactly when one of the five values is out of
range. -/
def Obligations.BuildRejectsOutOfRange : Prop :=
  ∀ s : State,
    (16 ≤ s.pkg.toNat ∨ 2 ^ 32 ≤ s.mtype.toNat ∨ 2 ^ 24 ≤ s.fwd.toNat ∨ 2 ^ 24 ≤ s.body.toNat ∨
      2 ^ 56 ≤ s.data.toNat → exec .build s = .next { s with code := 2#3 }) ∧
    (FieldsFit s → ∃ t, exec .build s = .next t ∧ t.code = 0#3)

/-- R140, R142 to R145: the header BUILD writes, byte for byte: the control word with the packet type and the five
minimal widths, the five fields one after the other, the length in `BLEN` and `RES`, and nothing else changed. -/
def Obligations.BuildWritesHeader : Prop :=
  ∀ s : State,
    (FieldsFit s → ∃ t mtB idB fwB bdB dtB l,
      IsMinimalWidth s.mtype.toNat 4 false mtB ∧ IsMinimalWidth s.mid.toNat 8 false idB ∧
      IsMinimalWidth s.fwd.toNat 3 true fwB ∧ IsMinimalWidth s.body.toNat 3 true bdB ∧
      IsMinimalWidth s.data.toNat 7 true dtB ∧
      l = 2 + mtB + idB + fwB + bdB + dtB ∧ 4 ≤ l ∧ l ≤ 27 ∧
      exec .build s = .next t ∧
      t = { s with buf := t.buf, blen := BitVec.ofNat 8 l, res := BitVec.ofNat 64 l, code := 0#3 } ∧
      (t.readByte 0).toNat = s.pkg.toNat * 16 + (mtB - 1) * 4 + fwB ∧
      (t.readByte 1).toNat = (idB - 1) * 32 + bdB * 8 + dtB ∧
      HoldsField t 2 mtB s.mtype ∧ HoldsField t (2 + mtB) idB s.mid ∧
      HoldsField t (2 + mtB + idB) fwB s.fwd ∧ HoldsField t (2 + mtB + idB + fwB) bdB s.body ∧
      HoldsField t (2 + mtB + idB + fwB + bdB) dtB s.data ∧
      ∀ k, l ≤ k → t.readByte k = s.readByte k) ∧
    (¬ FieldsFit s → exec .build s = .next { s with code := 2#3 })

/-- R146: the bytes, the length and the outcome of BUILD depend on `x[0]` to `x[5]` only, and the bytes beyond the header
keep their values. -/
def Obligations.BuildDependsOnSixRegisters : Prop :=
  ∀ s s' : State, s.pkg = s'.pkg → s.mtype = s'.mtype → s.mid = s'.mid → s.fwd = s'.fwd → s.body = s'.body →
    s.data = s'.data →
    ∃ t t', exec .build s = .next t ∧ exec .build s' = .next t' ∧ t.code = t'.code ∧
      (t.code = 0#3 → t.blen = t'.blen ∧ t.res = t'.res ∧ (∀ k, k < t.blen.toNat → t.readByte k = t'.readByte k) ∧
        ∀ k, t.blen.toNat ≤ k → t.readByte k = s.readByte k)

/-- R167, R149 law 2: a successful BUILD followed by PARSE restores the six values, whatever the registers hold by then,
and leaves the same length in `RES`. -/
def Obligations.ParseUndoesBuild : Prop :=
  ∀ s : State, FieldsFit s → ∃ t, exec .build s = .next t ∧ t.code = 0#3 ∧
    ∀ p : State, p.buf = t.buf → p.resets = t.resets → p.blen = t.blen →
      exec .parse p = .next { p with pkg := s.pkg, mtype := s.mtype, mid := s.mid, fwd := s.fwd, body := s.body,
                                     data := s.data, res := t.res, code := 0#3 }

/-- R149 laws 3 and 4: built headers are prefix-free, hence different values give different byte strings: if the header
of one state begins the header of another, the six values and the lengths are the same. -/
def Obligations.BuiltHeadersPrefixFree : Prop :=
  ∀ s s' t t' : State, exec .build s = .next t → exec .build s' = .next t' → t.code = 0#3 → t'.code = 0#3 →
    (∀ k, k < t.blen.toNat → t.readByte k = t'.readByte k) →
    t.blen = t'.blen ∧ s.pkg = s'.pkg ∧ s.mtype = s'.mtype ∧ s.mid = s'.mid ∧ s.fwd = s'.fwd ∧ s.body = s'.body ∧
      s.data = s'.data

/-! ### PARSE -/

/-- R160, R162 to R165: with the whole header available PARSE leaves the packet type and the five field values in `x[0]`
to `x[5]` and the length in `RES`, whether or not the widths are minimal (R80), and changes nothing else but
`STATUS.code`; else it raises `IncompleteHeader`. -/
def Obligations.ParseReadsHeader : Prop :=
  ∀ s : State,
    (2 ≤ s.blen.toNat → wireLength s ≤ s.blen.toNat → ∃ mt mi fl bl dl,
      exec .parse s = .next { s with pkg := BitVec.ofNat 64 (wirePkg s), mtype := mt, mid := mi, fwd := fl, body := bl,
                                     data := dl, res := BitVec.ofNat 64 (wireLength s), code := 0#3 } ∧
      HoldsField s 2 (wireMsgType s) mt ∧
      HoldsField s (2 + wireMsgType s) (wireMsgId s) mi ∧
      HoldsField s (2 + wireMsgType s + wireMsgId s) (wireFwd s) fl ∧
      HoldsField s (2 + wireMsgType s + wireMsgId s + wireFwd s) (wireBody s) bl ∧
      HoldsField s (2 + wireMsgType s + wireMsgId s + wireFwd s + wireBody s) (wireData s) dl) ∧
    (s.blen.toNat < 2 ∨ s.blen.toNat < wireLength s → exec .parse s = .next { s with code := 1#3 })

/-- R165: what PARSE leaves in the registers passes BUILD's range check, and its length is 4 to 27. -/
def Obligations.ParsedValuesPassBuildCheck : Prop :=
  ∀ s t : State, exec .parse s = .next t → t.code = 0#3 →
    FieldsFit t ∧ 4 ≤ t.res.toNat ∧ t.res.toNat ≤ 27 ∧ ∃ u, exec .build t = .next u ∧ u.code = 0#3

/-- R166: PARSE's results depend on `BLEN` and on the header's own bytes only. -/
def Obligations.ParseDependsOnHeaderBytes : Prop :=
  ∀ s s' : State, s.blen = s'.blen → (2 ≤ s.blen.toNat → ∀ k, k < 2 → s.readByte k = s'.readByte k) →
    (wireLength s ≤ s.blen.toNat → ∀ k, k < wireLength s → s.readByte k = s'.readByte k) →
    ∃ t t', exec .parse s = .next t ∧ exec .parse s' = .next t' ∧ t.code = t'.code ∧
      (t.code ≠ 0#3 → (∀ r, t.readReg r = s.readReg r) ∧ ∀ r, t'.readReg r = s'.readReg r) ∧
      (t.code = 0#3 → ∀ r, r ≠ .val → t.readReg r = t'.readReg r)

/-! ### The control word and the rows that are no commands -/

/-- R78: the two control bytes as sums, and their extraction by R77, for every packet type and every width in range. -/
def Obligations.ControlWordRoundTrip : Prop :=
  ∀ c : ControlWord, 1 ≤ c.msgTypeBytes → c.msgTypeBytes ≤ 4 → 1 ≤ c.msgIdBytes → c.msgIdBytes ≤ 8 →
    c.fwdBytes ≤ 3 → c.bodyBytes ≤ 3 → c.dataBytes ≤ 7 →
    (controlByte0 c).toNat = c.pkgType.toNat * 16 + (c.msgTypeBytes - 1) * 4 + c.fwdBytes ∧
    (controlByte1 c).toNat = (c.msgIdBytes - 1) * 32 + c.bodyBytes * 8 + c.dataBytes ∧
    controlOfBytes (controlByte0 c) (controlByte1 c) = c

/-- R71, R72: a received control byte stands at its offset with its fields in their places, and changes nothing else,
`STATUS.code` included. That these rows are executed at all is the model's choice (log entry 4). -/
def Obligations.ControlBytesAreStored : Prop :=
  (∀ (s : State) (p : BitVec 4) (t f : BitVec 2), ∃ u, exec (.hdrByte0 p t f) s = .next u ∧
    u = { s with buf := u.buf } ∧ (u.readByte 0).toNat = p.toNat * 16 + t.toNat * 4 + f.toNat ∧
    ∀ k, k ≠ 0 → u.readByte k = s.readByte k) ∧
  (∀ (s : State) (i : BitVec 3) (b : BitVec 2) (d : BitVec 3), ∃ u, exec (.hdrByte1 i b d) s = .next u ∧
    u = { s with buf := u.buf } ∧ (u.readByte 1).toNat = i.toNat * 32 + b.toNat * 8 + d.toNat ∧
    ∀ k, k ≠ 1 → u.readByte k = s.readByte k)

/-- R86 item 2, R183: the reserved `op` 7 always raises `IllegalCommand`, changing nothing else. -/
def Obligations.ReservedOpRaises : Prop :=
  ∀ (s : State) (r : BitVec 13), exec (.reservedOp7 r) s = .next { s with code := 3#3 }
end

