-- ==== Sys2Proof/Laws/Decode.lean ====
section
/-! SUPPORT. The control bytes as numbers, and the command word's fields (`30_encoding.md` R71 to R78, R83). -/

namespace Sys2Proof

open Machine

theorem Wire.byte0_toNat (p : BitVec 4) (t f : BitVec 2) :
    (Wire.byte0 (p.setWidth 8) (t.setWidth 8) (f.setWidth 8)).toNat = p.toNat * 16 + t.toNat * 4 + f.toNat := by
  revert p t f; decide

theorem Wire.byte1_toNat (i : BitVec 3) (b : BitVec 2) (d : BitVec 3) :
    (Wire.byte1 (i.setWidth 8) (b.setWidth 8) (d.setWidth 8)).toNat = i.toNat * 32 + b.toNat * 8 + d.toNat := by
  revert i b d; decide

/-- Byte 0 read as its fields and written again is the same byte. -/
theorem encode_decodeByte0 (b : Byte) : encode (decodeByte0 b) = .wire0 b := by
  revert b; decide

/-- Byte 1 read as its fields and written again is the same byte. -/
theorem encode_decodeByte1 (b : Byte) : encode (decodeByte1 b) = .wire1 b := by
  revert b; decide

/-- The fields of the control word, by arithmetic on its two bytes. -/
theorem controlOfBytes_eq (b0 b1 : Byte) :
    controlOfBytes b0 b1 =
      { pkgType := BitVec.ofNat 4 (b0.toNat / 16), msgTypeBytes := b0.toNat / 4 % 4 + 1,
        msgIdBytes := b1.toNat / 32 + 1, fwdBytes := b0.toNat % 4, bodyBytes := b1.toNat / 8 % 4,
        dataBytes := b1.toNat % 8 } := by
  have h0 : ∀ b : Byte, ((Wire.PKG.get b).setWidth 4 = BitVec.ofNat 4 (b.toNat / 16)) ∧
      (Wire.MTB.get b).toNat = b.toNat / 4 % 4 ∧ (Wire.FWB.get b).toNat = b.toNat % 4 := by decide
  have h1 : ∀ b : Byte, ((Wire.IDB.get b).toNat = b.toNat / 32) ∧
      (Wire.BDB.get b).toNat = b.toNat / 8 % 4 ∧ (Wire.DTB.get b).toNat = b.toNat % 8 := by decide
  simp only [controlOfBytes, h0 b0, h1 b1]

theorem headerLength_inBuffer (s : State) : headerLength (controlInBuffer s) = wireLength s := by
  simp only [controlInBuffer, controlOfBytes_eq, headerLength, wireLength, wireMsgType, wireMsgId, wireFwd, wireBody,
    wireData]

/-- A header is 4 to 27 bytes long (R76). -/
theorem wireLength_bounds (s : State) : 4 ≤ wireLength s ∧ wireLength s ≤ 27 := by
  have h0 := (s.readByte 0).isLt
  have h1 := (s.readByte 1).isLt
  simp only [wireLength, wireMsgType, wireMsgId, wireFwd, wireBody, wireData]
  omega

/-- Two control words with equal parts are equal. -/
theorem ControlWord.ext_parts (c d : ControlWord) (h1 : c.pkgType = d.pkgType) (h2 : c.msgTypeBytes = d.msgTypeBytes)
    (h3 : c.msgIdBytes = d.msgIdBytes) (h4 : c.fwdBytes = d.fwdBytes) (h5 : c.bodyBytes = d.bodyBytes)
    (h6 : c.dataBytes = d.dataBytes) : c = d := by
  cases c; cases d; simp_all

/-! ### The command word's fields -/

theorem Cmd.op_toNat (c : BitVec 16) : (Cmd.op c).toNat = c.toNat / 8192 % 8 := by
  simp [Cmd.op, BitVec.extractLsb'_toNat, Nat.shiftRight_eq_div_pow]

theorem Cmd.w_toNat (c : BitVec 16) : (Cmd.w c).toNat = c.toNat / 256 % 16 := by
  simp [Cmd.w, BitVec.extractLsb'_toNat, Nat.shiftRight_eq_div_pow]

theorem Cmd.off_toNat (c : BitVec 16) : (Cmd.off c).toNat = c.toNat % 256 := by
  simp [Cmd.off, BitVec.extractLsb'_toNat]

theorem Cmd.z_toNat (c : BitVec 16) : (Cmd.z c).toNat = c.toNat / 4096 % 2 := by
  simp only [Cmd.z, BitVec.getLsbD, Nat.testBit_eq_decide_div_mod_eq]
  rcases Nat.mod_two_eq_zero_or_one (c.toNat / 2 ^ 12) with h | h <;> simp_all

/-- A command word is the number its four fields make (R83, R88). -/
theorem commandWord_toNat (op : BitVec 3) (z : Bool) (w : BitVec 4) (off : BitVec 8) :
    (commandWord op z w off).toNat = op.toNat * 8192 + z.toNat * 4096 + w.toNat * 256 + off.toNat := by
  have h1 := op.isLt; have h2 := w.isLt; have h3 := off.isLt
  have h4 : z.toNat ≤ 1 := by cases z <;> decide
  simp only [commandWord, BitVec.toNat_append, BitVec.toNat_ofBool]
  rw [← Nat.shiftLeft_add_eq_or_of_lt (by omega), ← Nat.shiftLeft_add_eq_or_of_lt (by omega),
    ← Nat.shiftLeft_add_eq_or_of_lt (by omega)]
  simp only [Nat.shiftLeft_eq]
  omega

/-- A command word is determined by its four fields. -/
theorem commandWord_fields (c : BitVec 16) : commandWord (Cmd.op c) (Cmd.z c) (Cmd.w c) (Cmd.off c) = c := by
  apply BitVec.eq_of_toNat_eq
  have h := c.isLt
  rw [commandWord_toNat, Cmd.op_toNat, Cmd.z_toNat, Cmd.w_toNat, Cmd.off_toNat]
  omega

theorem Cmd.op_commandWord (op : BitVec 3) (z : Bool) (w : BitVec 4) (off : BitVec 8) :
    Cmd.op (commandWord op z w off) = op := by
  apply BitVec.eq_of_toNat_eq
  have h1 := op.isLt; have h2 := w.isLt; have h3 := off.isLt
  have h4 : z.toNat ≤ 1 := by cases z <;> decide
  rw [Cmd.op_toNat, commandWord_toNat]; omega

theorem Cmd.w_commandWord (op : BitVec 3) (z : Bool) (w : BitVec 4) (off : BitVec 8) :
    Cmd.w (commandWord op z w off) = w := by
  apply BitVec.eq_of_toNat_eq
  have h1 := op.isLt; have h2 := w.isLt; have h3 := off.isLt
  have h4 : z.toNat ≤ 1 := by cases z <;> decide
  rw [Cmd.w_toNat, commandWord_toNat]; omega

theorem Cmd.off_commandWord (op : BitVec 3) (z : Bool) (w : BitVec 4) (off : BitVec 8) :
    Cmd.off (commandWord op z w off) = off := by
  apply BitVec.eq_of_toNat_eq
  have h1 := op.isLt; have h2 := w.isLt; have h3 := off.isLt
  have h4 : z.toNat ≤ 1 := by cases z <;> decide
  rw [Cmd.off_toNat, commandWord_toNat]; omega

theorem Cmd.z_commandWord (op : BitVec 3) (z : Bool) (w : BitVec 4) (off : BitVec 8) :
    Cmd.z (commandWord op z w off) = z := by
  have h1 := op.isLt; have h2 := w.isLt; have h3 := off.isLt
  have h4 : z.toNat ≤ 1 := by cases z <;> decide
  have h : (Cmd.z (commandWord op z w off)).toNat = z.toNat := by rw [Cmd.z_toNat, commandWord_toNat]; omega
  revert h; cases Cmd.z (commandWord op z w off) <;> cases z <;> simp

/-- A word widened to the value written to `CMD` decodes as the word. -/
theorem decode_widened (c : BitVec 16) : decode (.command (c.setWidth 64)) = decodeWord c := by
  have hc := c.isLt
  have h1 : (c.setWidth 64).extractLsb' 16 48 = 0#48 := by
    apply BitVec.eq_of_toNat_eq
    simp [BitVec.extractLsb'_toNat, Nat.shiftRight_eq_div_pow]
    omega
  have h2 : (c.setWidth 64).setWidth 16 = c := by
    apply BitVec.eq_of_toNat_eq; simp
  simp [decode, h1, h2]

end Sys2Proof
end

