-- ==== Sys2Proof/Laws/State.lean ====
section
/-! SUPPORT. One lemma per field per update of `State`, true by `rfl`. -/

namespace Sys2Proof.Machine

@[simp] theorem State.setCode_pkg (s : State) (c : BitVec 3) : (s.setCode c).pkg = s.pkg := rfl
@[simp] theorem State.setCode_mtype (s : State) (c : BitVec 3) : (s.setCode c).mtype = s.mtype := rfl
@[simp] theorem State.setCode_mid (s : State) (c : BitVec 3) : (s.setCode c).mid = s.mid := rfl
@[simp] theorem State.setCode_fwd (s : State) (c : BitVec 3) : (s.setCode c).fwd = s.fwd := rfl
@[simp] theorem State.setCode_body (s : State) (c : BitVec 3) : (s.setCode c).body = s.body := rfl
@[simp] theorem State.setCode_data (s : State) (c : BitVec 3) : (s.setCode c).data = s.data := rfl
@[simp] theorem State.setCode_val (s : State) (c : BitVec 3) : (s.setCode c).val = s.val := rfl
@[simp] theorem State.setCode_res (s : State) (c : BitVec 3) : (s.setCode c).res = s.res := rfl
@[simp] theorem State.setCode_code (s : State) (c : BitVec 3) : (s.setCode c).code = c := rfl
@[simp] theorem State.setCode_blen (s : State) (c : BitVec 3) : (s.setCode c).blen = s.blen := rfl
@[simp] theorem State.setCode_buf (s : State) (c : BitVec 3) : (s.setCode c).buf = s.buf := rfl
@[simp] theorem State.setCode_resets (s : State) (c : BitVec 3) : (s.setCode c).resets = s.resets := rfl
@[simp] theorem State.setCode_pending (s : State) (c : BitVec 3) : (s.setCode c).pending = s.pending := rfl
@[simp] theorem State.setCode_replies (s : State) (c : BitVec 3) : (s.setCode c).replies = s.replies := rfl

@[simp] theorem State.setBlen_pkg (s : State) (n : BitVec 8) : (s.setBlen n).pkg = s.pkg := rfl
@[simp] theorem State.setBlen_mtype (s : State) (n : BitVec 8) : (s.setBlen n).mtype = s.mtype := rfl
@[simp] theorem State.setBlen_mid (s : State) (n : BitVec 8) : (s.setBlen n).mid = s.mid := rfl
@[simp] theorem State.setBlen_fwd (s : State) (n : BitVec 8) : (s.setBlen n).fwd = s.fwd := rfl
@[simp] theorem State.setBlen_body (s : State) (n : BitVec 8) : (s.setBlen n).body = s.body := rfl
@[simp] theorem State.setBlen_data (s : State) (n : BitVec 8) : (s.setBlen n).data = s.data := rfl
@[simp] theorem State.setBlen_val (s : State) (n : BitVec 8) : (s.setBlen n).val = s.val := rfl
@[simp] theorem State.setBlen_res (s : State) (n : BitVec 8) : (s.setBlen n).res = s.res := rfl
@[simp] theorem State.setBlen_code (s : State) (n : BitVec 8) : (s.setBlen n).code = s.code := rfl
@[simp] theorem State.setBlen_blen (s : State) (n : BitVec 8) : (s.setBlen n).blen = n := rfl
@[simp] theorem State.setBlen_buf (s : State) (n : BitVec 8) : (s.setBlen n).buf = s.buf := rfl
@[simp] theorem State.setBlen_resets (s : State) (n : BitVec 8) : (s.setBlen n).resets = s.resets := rfl
@[simp] theorem State.setBlen_pending (s : State) (n : BitVec 8) : (s.setBlen n).pending = s.pending := rfl
@[simp] theorem State.setBlen_replies (s : State) (n : BitVec 8) : (s.setBlen n).replies = s.replies := rfl

@[simp] theorem State.pushReply_pkg (s : State) (r : Reply) : (s.pushReply r).pkg = s.pkg := rfl
@[simp] theorem State.pushReply_mtype (s : State) (r : Reply) : (s.pushReply r).mtype = s.mtype := rfl
@[simp] theorem State.pushReply_mid (s : State) (r : Reply) : (s.pushReply r).mid = s.mid := rfl
@[simp] theorem State.pushReply_fwd (s : State) (r : Reply) : (s.pushReply r).fwd = s.fwd := rfl
@[simp] theorem State.pushReply_body (s : State) (r : Reply) : (s.pushReply r).body = s.body := rfl
@[simp] theorem State.pushReply_data (s : State) (r : Reply) : (s.pushReply r).data = s.data := rfl
@[simp] theorem State.pushReply_val (s : State) (r : Reply) : (s.pushReply r).val = s.val := rfl
@[simp] theorem State.pushReply_res (s : State) (r : Reply) : (s.pushReply r).res = s.res := rfl
@[simp] theorem State.pushReply_code (s : State) (r : Reply) : (s.pushReply r).code = s.code := rfl
@[simp] theorem State.pushReply_blen (s : State) (r : Reply) : (s.pushReply r).blen = s.blen := rfl
@[simp] theorem State.pushReply_buf (s : State) (r : Reply) : (s.pushReply r).buf = s.buf := rfl
@[simp] theorem State.pushReply_resets (s : State) (r : Reply) : (s.pushReply r).resets = s.resets := rfl
@[simp] theorem State.pushReply_pending (s : State) (r : Reply) : (s.pushReply r).pending = s.pending := rfl
@[simp] theorem State.pushReply_replies (s : State) (r : Reply) : (s.pushReply r).replies = r :: s.replies := rfl

@[simp] theorem State.writeByte_pkg (s : State) (k : Nat) (b : Byte) : (s.writeByte k b).pkg = s.pkg := rfl
@[simp] theorem State.writeByte_mtype (s : State) (k : Nat) (b : Byte) : (s.writeByte k b).mtype = s.mtype := rfl
@[simp] theorem State.writeByte_mid (s : State) (k : Nat) (b : Byte) : (s.writeByte k b).mid = s.mid := rfl
@[simp] theorem State.writeByte_fwd (s : State) (k : Nat) (b : Byte) : (s.writeByte k b).fwd = s.fwd := rfl
@[simp] theorem State.writeByte_body (s : State) (k : Nat) (b : Byte) : (s.writeByte k b).body = s.body := rfl
@[simp] theorem State.writeByte_data (s : State) (k : Nat) (b : Byte) : (s.writeByte k b).data = s.data := rfl
@[simp] theorem State.writeByte_val (s : State) (k : Nat) (b : Byte) : (s.writeByte k b).val = s.val := rfl
@[simp] theorem State.writeByte_res (s : State) (k : Nat) (b : Byte) : (s.writeByte k b).res = s.res := rfl
@[simp] theorem State.writeByte_code (s : State) (k : Nat) (b : Byte) : (s.writeByte k b).code = s.code := rfl
@[simp] theorem State.writeByte_blen (s : State) (k : Nat) (b : Byte) : (s.writeByte k b).blen = s.blen := rfl
@[simp] theorem State.writeByte_resets (s : State) (k : Nat) (b : Byte) : (s.writeByte k b).resets = s.resets := rfl
@[simp] theorem State.writeByte_pending (s : State) (k : Nat) (b : Byte) : (s.writeByte k b).pending = s.pending := rfl
@[simp] theorem State.writeByte_replies (s : State) (k : Nat) (b : Byte) : (s.writeByte k b).replies = s.replies := rfl
@[simp] theorem State.writeByte_buf (s : State) (k : Nat) (b : Byte) :
    (s.writeByte k b).buf = Memory.insert s.buf k b := rfl

@[simp] theorem State.readReg_pkg (s : State) : s.readReg .pkg = s.pkg := rfl
@[simp] theorem State.readReg_mtype (s : State) : s.readReg .mtype = s.mtype := rfl
@[simp] theorem State.readReg_mid (s : State) : s.readReg .mid = s.mid := rfl
@[simp] theorem State.readReg_fwd (s : State) : s.readReg .fwd = s.fwd := rfl
@[simp] theorem State.readReg_body (s : State) : s.readReg .body = s.body := rfl
@[simp] theorem State.readReg_data (s : State) : s.readReg .data = s.data := rfl
@[simp] theorem State.readReg_val (s : State) : s.readReg .val = s.val := rfl
@[simp] theorem State.readReg_res (s : State) : s.readReg .res = s.res := rfl

@[simp] theorem State.setReg_pkg_pkg (s : State) (v : Word) : (s.setReg .pkg v).pkg = v := rfl
@[simp] theorem State.setReg_pkg_mtype (s : State) (v : Word) : (s.setReg .pkg v).mtype = s.mtype := rfl
@[simp] theorem State.setReg_pkg_mid (s : State) (v : Word) : (s.setReg .pkg v).mid = s.mid := rfl
@[simp] theorem State.setReg_pkg_fwd (s : State) (v : Word) : (s.setReg .pkg v).fwd = s.fwd := rfl
@[simp] theorem State.setReg_pkg_body (s : State) (v : Word) : (s.setReg .pkg v).body = s.body := rfl
@[simp] theorem State.setReg_pkg_data (s : State) (v : Word) : (s.setReg .pkg v).data = s.data := rfl
@[simp] theorem State.setReg_pkg_val (s : State) (v : Word) : (s.setReg .pkg v).val = s.val := rfl
@[simp] theorem State.setReg_pkg_res (s : State) (v : Word) : (s.setReg .pkg v).res = s.res := rfl
@[simp] theorem State.setReg_mtype_pkg (s : State) (v : Word) : (s.setReg .mtype v).pkg = s.pkg := rfl
@[simp] theorem State.setReg_mtype_mtype (s : State) (v : Word) : (s.setReg .mtype v).mtype = v := rfl
@[simp] theorem State.setReg_mtype_mid (s : State) (v : Word) : (s.setReg .mtype v).mid = s.mid := rfl
@[simp] theorem State.setReg_mtype_fwd (s : State) (v : Word) : (s.setReg .mtype v).fwd = s.fwd := rfl
@[simp] theorem State.setReg_mtype_body (s : State) (v : Word) : (s.setReg .mtype v).body = s.body := rfl
@[simp] theorem State.setReg_mtype_data (s : State) (v : Word) : (s.setReg .mtype v).data = s.data := rfl
@[simp] theorem State.setReg_mtype_val (s : State) (v : Word) : (s.setReg .mtype v).val = s.val := rfl
@[simp] theorem State.setReg_mtype_res (s : State) (v : Word) : (s.setReg .mtype v).res = s.res := rfl
@[simp] theorem State.setReg_mid_pkg (s : State) (v : Word) : (s.setReg .mid v).pkg = s.pkg := rfl
@[simp] theorem State.setReg_mid_mtype (s : State) (v : Word) : (s.setReg .mid v).mtype = s.mtype := rfl
@[simp] theorem State.setReg_mid_mid (s : State) (v : Word) : (s.setReg .mid v).mid = v := rfl
@[simp] theorem State.setReg_mid_fwd (s : State) (v : Word) : (s.setReg .mid v).fwd = s.fwd := rfl
@[simp] theorem State.setReg_mid_body (s : State) (v : Word) : (s.setReg .mid v).body = s.body := rfl
@[simp] theorem State.setReg_mid_data (s : State) (v : Word) : (s.setReg .mid v).data = s.data := rfl
@[simp] theorem State.setReg_mid_val (s : State) (v : Word) : (s.setReg .mid v).val = s.val := rfl
@[simp] theorem State.setReg_mid_res (s : State) (v : Word) : (s.setReg .mid v).res = s.res := rfl
@[simp] theorem State.setReg_fwd_pkg (s : State) (v : Word) : (s.setReg .fwd v).pkg = s.pkg := rfl
@[simp] theorem State.setReg_fwd_mtype (s : State) (v : Word) : (s.setReg .fwd v).mtype = s.mtype := rfl
@[simp] theorem State.setReg_fwd_mid (s : State) (v : Word) : (s.setReg .fwd v).mid = s.mid := rfl
@[simp] theorem State.setReg_fwd_fwd (s : State) (v : Word) : (s.setReg .fwd v).fwd = v := rfl
@[simp] theorem State.setReg_fwd_body (s : State) (v : Word) : (s.setReg .fwd v).body = s.body := rfl
@[simp] theorem State.setReg_fwd_data (s : State) (v : Word) : (s.setReg .fwd v).data = s.data := rfl
@[simp] theorem State.setReg_fwd_val (s : State) (v : Word) : (s.setReg .fwd v).val = s.val := rfl
@[simp] theorem State.setReg_fwd_res (s : State) (v : Word) : (s.setReg .fwd v).res = s.res := rfl
@[simp] theorem State.setReg_body_pkg (s : State) (v : Word) : (s.setReg .body v).pkg = s.pkg := rfl
@[simp] theorem State.setReg_body_mtype (s : State) (v : Word) : (s.setReg .body v).mtype = s.mtype := rfl
@[simp] theorem State.setReg_body_mid (s : State) (v : Word) : (s.setReg .body v).mid = s.mid := rfl
@[simp] theorem State.setReg_body_fwd (s : State) (v : Word) : (s.setReg .body v).fwd = s.fwd := rfl
@[simp] theorem State.setReg_body_body (s : State) (v : Word) : (s.setReg .body v).body = v := rfl
@[simp] theorem State.setReg_body_data (s : State) (v : Word) : (s.setReg .body v).data = s.data := rfl
@[simp] theorem State.setReg_body_val (s : State) (v : Word) : (s.setReg .body v).val = s.val := rfl
@[simp] theorem State.setReg_body_res (s : State) (v : Word) : (s.setReg .body v).res = s.res := rfl
@[simp] theorem State.setReg_data_pkg (s : State) (v : Word) : (s.setReg .data v).pkg = s.pkg := rfl
@[simp] theorem State.setReg_data_mtype (s : State) (v : Word) : (s.setReg .data v).mtype = s.mtype := rfl
@[simp] theorem State.setReg_data_mid (s : State) (v : Word) : (s.setReg .data v).mid = s.mid := rfl
@[simp] theorem State.setReg_data_fwd (s : State) (v : Word) : (s.setReg .data v).fwd = s.fwd := rfl
@[simp] theorem State.setReg_data_body (s : State) (v : Word) : (s.setReg .data v).body = s.body := rfl
@[simp] theorem State.setReg_data_data (s : State) (v : Word) : (s.setReg .data v).data = v := rfl
@[simp] theorem State.setReg_data_val (s : State) (v : Word) : (s.setReg .data v).val = s.val := rfl
@[simp] theorem State.setReg_data_res (s : State) (v : Word) : (s.setReg .data v).res = s.res := rfl
@[simp] theorem State.setReg_val_pkg (s : State) (v : Word) : (s.setReg .val v).pkg = s.pkg := rfl
@[simp] theorem State.setReg_val_mtype (s : State) (v : Word) : (s.setReg .val v).mtype = s.mtype := rfl
@[simp] theorem State.setReg_val_mid (s : State) (v : Word) : (s.setReg .val v).mid = s.mid := rfl
@[simp] theorem State.setReg_val_fwd (s : State) (v : Word) : (s.setReg .val v).fwd = s.fwd := rfl
@[simp] theorem State.setReg_val_body (s : State) (v : Word) : (s.setReg .val v).body = s.body := rfl
@[simp] theorem State.setReg_val_data (s : State) (v : Word) : (s.setReg .val v).data = s.data := rfl
@[simp] theorem State.setReg_val_val (s : State) (v : Word) : (s.setReg .val v).val = v := rfl
@[simp] theorem State.setReg_val_res (s : State) (v : Word) : (s.setReg .val v).res = s.res := rfl
@[simp] theorem State.setReg_res_pkg (s : State) (v : Word) : (s.setReg .res v).pkg = s.pkg := rfl
@[simp] theorem State.setReg_res_mtype (s : State) (v : Word) : (s.setReg .res v).mtype = s.mtype := rfl
@[simp] theorem State.setReg_res_mid (s : State) (v : Word) : (s.setReg .res v).mid = s.mid := rfl
@[simp] theorem State.setReg_res_fwd (s : State) (v : Word) : (s.setReg .res v).fwd = s.fwd := rfl
@[simp] theorem State.setReg_res_body (s : State) (v : Word) : (s.setReg .res v).body = s.body := rfl
@[simp] theorem State.setReg_res_data (s : State) (v : Word) : (s.setReg .res v).data = s.data := rfl
@[simp] theorem State.setReg_res_val (s : State) (v : Word) : (s.setReg .res v).val = s.val := rfl
@[simp] theorem State.setReg_res_res (s : State) (v : Word) : (s.setReg .res v).res = v := rfl

@[simp] theorem State.setReg_code (s : State) (r : Reg) (v : Word) : (s.setReg r v).code = s.code := by cases r <;> rfl
@[simp] theorem State.setReg_blen (s : State) (r : Reg) (v : Word) : (s.setReg r v).blen = s.blen := by cases r <;> rfl
@[simp] theorem State.setReg_buf (s : State) (r : Reg) (v : Word) : (s.setReg r v).buf = s.buf := by cases r <;> rfl
@[simp] theorem State.setReg_resets (s : State) (r : Reg) (v : Word) : (s.setReg r v).resets = s.resets := by cases r <;> rfl
@[simp] theorem State.setReg_pending (s : State) (r : Reg) (v : Word) : (s.setReg r v).pending = s.pending := by cases r <;> rfl
@[simp] theorem State.setReg_replies (s : State) (r : Reg) (v : Word) : (s.setReg r v).replies = s.replies := by cases r <;> rfl

/-- A register reads as the value written last; the others are kept. -/
theorem State.readReg_setReg (s : State) (r q : Reg) (v : Word) :
    (s.setReg r v).readReg q = if q = r then v else s.readReg q := by
  cases r <;> cases q <;> rfl

@[simp] theorem State.readReg_setReg_same (s : State) (r : Reg) (v : Word) : (s.setReg r v).readReg r = v := by
  cases r <;> rfl

theorem State.readReg_setReg_other (s : State) (r q : Reg) (v : Word) (h : q ≠ r) :
    (s.setReg r v).readReg q = s.readReg q := by
  simp [State.readReg_setReg, h]

@[simp] theorem State.readReg_setCode (s : State) (c : BitVec 3) (r : Reg) :
    (s.setCode c).readReg r = s.readReg r := by cases r <;> rfl

@[simp] theorem State.readReg_setBlen (s : State) (n : BitVec 8) (r : Reg) :
    (s.setBlen n).readReg r = s.readReg r := by cases r <;> rfl

@[simp] theorem State.readReg_pushReply (s : State) (p : Reply) (r : Reg) :
    (s.pushReply p).readReg r = s.readReg r := by cases r <;> rfl

@[simp] theorem State.readReg_writeByte (s : State) (k : Nat) (b : Byte) (r : Reg) :
    (s.writeByte k b).readReg r = s.readReg r := by cases r <;> rfl

@[simp] theorem State.readByte_setReg (s : State) (r : Reg) (v : Word) (k : Nat) :
    (s.setReg r v).readByte k = s.readByte k := by cases r <;> rfl

@[simp] theorem State.readByte_setCode (s : State) (c : BitVec 3) (k : Nat) :
    (s.setCode c).readByte k = s.readByte k := rfl

@[simp] theorem State.readByte_setBlen (s : State) (n : BitVec 8) (k : Nat) :
    (s.setBlen n).readByte k = s.readByte k := rfl

@[simp] theorem State.readByte_pushReply (s : State) (p : Reply) (k : Nat) :
    (s.pushReply p).readByte k = s.readByte k := rfl

end Sys2Proof.Machine
end

