-- ==== Sys2Proof/Laws/Ops.lean ====
section
/-! SUPPORT. What each shared operation can do, said once: the buffer's lookup and insert, `MemRead` and `MemWrite`, the
end of a command. -/

namespace Sys2Proof.Machine

/-! ### Memory -/

theorem Memory.lookup_insert (m : Memory) (k j : Nat) (v : Byte) :
    Memory.lookup (Memory.insert m k v) j = if j = k then some v else Memory.lookup m j := by
  induction m with
  | nil => simp [Memory.insert, Memory.lookup]
  | cons c m ih =>
    obtain ⟨a, b⟩ := c
    simp only [Memory.insert]
    split
    · simp [Memory.lookup]
    · split
      · subst a; by_cases h : j = k <;> simp [Memory.lookup, h]
      · simp only [Memory.lookup, ih]
        by_cases h : j = a
        · subst h; simp [show ¬ j = k by omega]
        · simp [h]

theorem Memory.rises_insert (m : Memory) (lo k : Nat) (v : Byte) (h : Memory.rises lo m = true) (hlo : lo ≤ k)
    (hk : k < Config.BUFCAP) : Memory.rises lo (Memory.insert m k v) = true := by
  induction m generalizing lo with
  | nil => simp [Memory.insert, Memory.rises, hlo]; omega
  | cons c m ih =>
    obtain ⟨a, b⟩ := c
    simp only [Memory.rises, Bool.and_eq_true, decide_eq_true_eq] at h
    simp only [Memory.insert]
    split
    · simp only [Memory.rises, Bool.and_eq_true, decide_eq_true_eq]
      exact ⟨⟨hlo, hk⟩, ⟨by omega, h.1.2⟩, h.2⟩
    · split
      · subst a; simp only [Memory.rises, Bool.and_eq_true, decide_eq_true_eq]; exact h
      · simp only [Memory.rises, Bool.and_eq_true, decide_eq_true_eq]
        exact ⟨h.1, ih _ h.2 (by omega)⟩

/-- A store inside the buffer keeps the canonical form. -/
theorem Memory.wf_insert (m : Memory) (k : Nat) (v : Byte) (h : Memory.wf m = true) (hk : k < Config.BUFCAP) :
    Memory.wf (Memory.insert m k v) = true :=
  Memory.rises_insert m 0 k v h (Nat.zero_le k) hk

theorem Memory.wf_reset : Memory.wf State.reset.buf = true := rfl

/-- A byte reads as the value written last; the others are kept. -/
theorem State.readByte_writeByte (s : State) (k j : Nat) (b : Byte) :
    (s.writeByte k b).readByte j = if j = k then b else s.readByte j := by
  simp only [State.readByte, State.writeByte_buf, State.writeByte_resets, Memory.lookup_insert]
  split <;> rfl

/-- A read depends on the buffer and on which reset drew the free bytes, on nothing else. -/
theorem State.readByte_congr (s t : State) (k : Nat) (hb : s.buf = t.buf) (hr : s.resets = t.resets) :
    s.readByte k = t.readByte k := by
  simp [State.readByte, hb, hr]

/-! ### `MemRead` -/

theorem leSum_lt (s : State) (off n : Nat) : leSum s off n < 2 ^ (8 * n) := by
  induction n with
  | zero => simp [leSum]
  | succ n ih =>
    have hb := (s.readByte (off + n)).isLt
    have hp : 2 ^ (8 * (n + 1)) = 256 * 2 ^ (8 * n) := by rw [Nat.mul_succ, Nat.pow_add]; omega
    simp only [leSum, hp]
    generalize 2 ^ (8 * n) = p at *
    have : (s.readByte (off + n)).toNat * p ≤ 255 * p := Nat.mul_le_mul_right p (by omega)
    omega

theorem memRead_toNat (s : State) (off n : Nat) (hn : n ≤ 8) : (memRead s off n).toNat = leSum s off n := by
  have h := leSum_lt s off n
  have hp : 2 ^ (8 * n) ≤ 2 ^ 64 := Nat.pow_le_pow_right (by omega) (by omega)
  simp only [memRead, BitVec.toNat_ofNat]
  exact Nat.mod_eq_of_lt (by omega)

/-- Byte `k` of the sum is the byte at `off + k`. -/
theorem leSum_byte (s : State) (off n k : Nat) (hk : k < n) :
    leSum s off n / 2 ^ (8 * k) % 256 = (s.readByte (off + k)).toNat := by
  induction n with
  | zero => omega
  | succ n ih =>
    have hb := (s.readByte (off + n)).isLt
    simp only [leSum]
    by_cases h : k = n
    · subst h
      have hp : 0 < 2 ^ (8 * k) := Nat.pow_pos (by omega)
      rw [Nat.add_mul_div_right _ _ hp, Nat.div_eq_of_lt (leSum_lt s off k)]
      omega
    · have hp : 0 < 2 ^ (8 * k) := Nat.pow_pos (by omega)
      have he : 2 ^ (8 * n) = 256 * 2 ^ (8 * (n - k - 1)) * 2 ^ (8 * k) := by
        rw [show (256 : Nat) = 2 ^ 8 by rfl, ← Nat.pow_add, ← Nat.pow_add]; congr 1; omega
      rw [he, ← Nat.mul_assoc, Nat.add_mul_div_right _ _ hp, Nat.mul_left_comm, Nat.add_mul_mod_self_left]
      exact ih (by omega)

/-- `MemRead` gives the value the bytes hold. -/
theorem memRead_holdsField (s : State) (off n : Nat) (hn : n ≤ 8) : HoldsField s off n (memRead s off n) := by
  rw [HoldsField, memRead_toNat s off n hn]
  exact ⟨leSum_lt s off n, fun k hk => (leSum_byte s off n k hk).symm⟩

/-- The sum is determined by the bytes it reads. -/
theorem leSum_congr (s t : State) (off n : Nat) (h : ∀ k, k < n → s.readByte (off + k) = t.readByte (off + k)) :
    leSum s off n = leSum t off n := by
  induction n with
  | zero => rfl
  | succ n ih => simp only [leSum, ih fun k hk => h k (by omega), h n (by omega)]

theorem memRead_congr (s t : State) (off n : Nat) (h : ∀ k, k < n → s.readByte (off + k) = t.readByte (off + k)) :
    memRead s off n = memRead t off n := by
  simp only [memRead, leSum_congr s t off n h]

/-- Bytes that hold `v` sum to `v`. -/
theorem leSum_of_bytes (s : State) (off n v : Nat)
    (h : ∀ k, k < n → (s.readByte (off + k)).toNat = v / 2 ^ (8 * k) % 256) : leSum s off n = v % 2 ^ (8 * n) := by
  induction n with
  | zero => simp [leSum, Nat.mod_one]
  | succ n ih =>
    simp only [leSum, ih fun k hk => h k (by omega), h n (by omega)]
    rw [Nat.mul_succ, Nat.pow_add, Nat.mod_mul, Nat.mul_comm (2 ^ (8 * n))]

/-- The bytes of a field read as the value they hold. -/
theorem memRead_of_holdsField (s : State) (off n : Nat) (v : Word) (hn : n ≤ 8) (h : HoldsField s off n v) :
    memRead s off n = v := by
  apply BitVec.eq_of_toNat_eq
  rw [memRead_toNat s off n hn, leSum_of_bytes s off n v.toNat h.2, Nat.mod_eq_of_lt h.1]

/-! ### `MemWrite` -/

theorem byteOf_toNat (v : Word) (k : Nat) : (byteOf v k).toNat = v.toNat / 2 ^ (8 * k) % 256 := by
  simp [byteOf, BitVec.extractLsb'_toNat, Nat.shiftRight_eq_div_pow]

/-- `MemWrite` changes the buffer alone. -/
theorem memWrite_only_buf (s : State) (off n : Nat) (v : Word) :
    memWrite s off n v = { s with buf := (memWrite s off n v).buf } := by
  induction n with
  | zero => rfl
  | succ n ih => simp only [memWrite]; rw [ih]; rfl

theorem memWrite_resets (s : State) (off n : Nat) (v : Word) : (memWrite s off n v).resets = s.resets := by
  rw [memWrite_only_buf]

@[simp] theorem memWrite_readReg (s : State) (off n : Nat) (v : Word) (r : Reg) :
    (memWrite s off n v).readReg r = s.readReg r := by
  rw [memWrite_only_buf]; cases r <;> rfl

/-- `MemWrite` stores the value's bytes in its range and changes no other byte. -/
theorem readByte_memWrite (s : State) (off n j : Nat) (v : Word) :
    (memWrite s off n v).readByte j = if off ≤ j ∧ j < off + n then byteOf v (j - off) else s.readByte j := by
  induction n with
  | zero => simp only [memWrite]; rw [if_neg (by omega)]
  | succ n ih =>
    simp only [memWrite, State.readByte_writeByte, ih]
    by_cases h : j = off + n
    · subst h; simp
    · rw [if_neg h]
      by_cases h2 : off ≤ j ∧ j < off + n
      · rw [if_pos h2, if_pos (by omega)]
      · rw [if_neg h2, if_neg (by omega)]

/-- The same of any state that holds the written buffer. -/
theorem readByte_of_memWrite (t s : State) (off n j : Nat) (v : Word) (hb : t.buf = (memWrite s off n v).buf)
    (hr : t.resets = s.resets) :
    t.readByte j = if off ≤ j ∧ j < off + n then byteOf v (j - off) else s.readByte j := by
  rw [State.readByte_congr t (memWrite s off n v) j hb (hr.trans (memWrite_resets s off n v).symm), readByte_memWrite]

theorem memWrite_wf (s : State) (off n : Nat) (v : Word) (h : Memory.wf s.buf = true)
    (hb : off + n ≤ Config.BUFCAP) : Memory.wf (memWrite s off n v).buf = true := by
  induction n with
  | zero => exact h
  | succ n ih => exact Memory.wf_insert _ _ _ (ih (by omega)) (by omega)

/-- A value that fits, once written, is held; nothing outside the range moved. -/
theorem memWrite_holdsField (s : State) (off n : Nat) (v : Word) (hv : v.toNat < 2 ^ (8 * n)) :
    HoldsField (memWrite s off n v) off n v := by
  refine ⟨hv, fun k hk => ?_⟩
  rw [readByte_memWrite, if_pos (by omega), byteOf_toNat, Nat.add_sub_cancel_left]

/-- A field held outside the written range is still held. -/
theorem HoldsField.memWrite {s : State} {o n : Nat} {w : Word} (h : HoldsField s o n w) (off m : Nat) (v : Word)
    (hd : o + n ≤ off ∨ off + m ≤ o) : HoldsField (memWrite s off m v) o n w := by
  refine ⟨h.1, fun k hk => ?_⟩
  rw [readByte_memWrite, if_neg (by omega)]
  exact h.2 k hk

theorem HoldsField.congr {s t : State} {o n : Nat} {w : Word} (h : HoldsField s o n w)
    (he : ∀ k, k < n → t.readByte (o + k) = s.readByte (o + k)) : HoldsField t o n w :=
  ⟨h.1, fun k hk => by rw [he k hk]; exact h.2 k hk⟩

/-! ### The end of a command -/

theorem complete_eq (s : State) : complete s = .next { s with code := 0#3 } := rfl

theorem raise_eq (e : Completion) (s : State) : raise e s = .next { s with code := completionCode e } := rfl

/-- The codes are 0 to 4. -/
theorem completionCode_le (e : Completion) : (completionCode e).toNat ≤ 4 := by cases e <;> decide

end Sys2Proof.Machine
end

