-- ==== Sys2Proof/Laws/Width.lean ====
section
/-! SUPPORT. The Width Calculator's function, said once (`40_width.md` R100). -/

namespace Sys2Proof.Machine

/-- The loop stops at the first width that holds the value, or after the last. -/
theorem firstFit_spec (v : Word) (n w : Nat) :
    w ≤ firstFit v n w ∧ firstFit v n w ≤ w + n ∧ (firstFit v n w < w + n → v.toNat < 2 ^ (8 * firstFit v n w)) ∧
    ∀ j, w ≤ j → j < firstFit v n w → 2 ^ (8 * j) ≤ v.toNat := by
  induction n generalizing w with
  | zero => simp only [firstFit]; exact ⟨Nat.le_refl w, Nat.le_refl w, by omega, by omega⟩
  | succ n ih =>
    simp only [firstFit]
    split
    · exact ⟨Nat.le_refl w, by omega, fun _ => by assumption, by omega⟩
    · obtain ⟨h1, h2, h3, h4⟩ := ih (w + 1)
      refine ⟨by omega, by omega, fun h => h3 (by omega), fun j hj hlt => ?_⟩
      by_cases hw : j = w
      · subst hw; omega
      · exact h4 j (by omega) hlt

/-- `minbytes` gives the minimal width. -/
theorem minbytes_isMinimal (v : Word) (cap : Nat) (z : Bool) (hc : 1 ≤ cap) :
    IsMinimalWidth v.toNat cap z (minbytes v cap z) := by
  have hv : v = 0#64 ↔ v.toNat = 0 := by simp [← BitVec.toNat_inj]
  unfold IsMinimalWidth minbytes
  by_cases h : z = true ∧ v.toNat = 0
  · simp [h, hv.mpr h.2]
  · have h' : ¬ (z && v == 0#64) = true := by simpa [hv] using h
    rw [if_neg h, if_neg h']
    obtain ⟨h1, h2, h3, h4⟩ := firstFit_spec v (cap - 1) 1
    exact ⟨h1, by omega, fun hl => h3 (by omega), h4⟩

/-- Only one number is the minimal width. -/
theorem IsMinimalWidth.unique {v cap : Nat} {z : Bool} {r q : Nat} (hr : IsMinimalWidth v cap z r)
    (hq : IsMinimalWidth v cap z q) : r = q := by
  unfold IsMinimalWidth at hr hq
  split at hr
  · rename_i h; rw [if_pos h] at hq; omega
  · rename_i h; rw [if_neg h] at hq
    obtain ⟨r1, r2, r3, r4⟩ := hr
    obtain ⟨q1, q2, q3, q4⟩ := hq
    rcases Nat.lt_trichotomy r q with h | h | h
    · have := r3 (by omega); have := q4 r r1 h; omega
    · exact h
    · have := q3 (by omega); have := r4 q q1 h; omega

theorem minbytes_le (v : Word) (cap : Nat) (z : Bool) (hc : 1 ≤ cap) : minbytes v cap z ≤ cap := by
  have h := minbytes_isMinimal v cap z hc
  unfold IsMinimalWidth at h
  split at h <;> omega

theorem minbytes_pos (v : Word) (cap : Nat) (hc : 1 ≤ cap) : 1 ≤ minbytes v cap false := by
  have h := minbytes_isMinimal v cap false hc
  simp only [IsMinimalWidth, Bool.false_eq_true, false_and, if_false] at h
  exact h.1

/-- A value that fits the cap fits its minimal width. -/
theorem minbytes_holds (v : Word) (cap : Nat) (z : Bool) (hc : 1 ≤ cap) (hv : v.toNat < 2 ^ (8 * cap)) :
    v.toNat < 2 ^ (8 * minbytes v cap z) := by
  have h := minbytes_isMinimal v cap z hc
  unfold IsMinimalWidth at h
  split at h
  · rename_i h0; simp [h, h0.2]
  · obtain ⟨_, h2, h3, _⟩ := h
    by_cases hlt : minbytes v cap z < cap
    · exact h3 hlt
    · rwa [show minbytes v cap z = cap by omega]

/-- WIDTH with a legal cap: what it leaves, and that it leaves nothing else. -/
theorem calcWidth_legal (z : Bool) (w : BitVec 4) (s : State) (h : legalCap w = true) :
    calcWidth z w s = .next { s with res := BitVec.ofNat 64 (minbytes s.val w.toNat z), code := 0#3 } := by
  simp only [calcWidth, h, if_true]; rfl

end Sys2Proof.Machine
end

