-- ==== Sys2Proof/Laws/Build.lean ====
section
/-! SUPPORT. BUILD's and PARSE's shared pieces, each said once (`43_build.md` R140 to R146, `44_parse.md` R160 to R165). -/

namespace Sys2Proof.Machine

/-! ### The control word BUILD makes -/

/-- The widths of a control word are in range (`30_encoding.md` R71, R72). -/
def ControlInRange (c : ControlWord) : Prop :=
  1 ≤ c.msgTypeBytes ∧ c.msgTypeBytes ≤ 4 ∧ 1 ≤ c.msgIdBytes ∧ c.msgIdBytes ≤ 8 ∧ c.fwdBytes ≤ 3 ∧ c.bodyBytes ≤ 3 ∧
  c.dataBytes ≤ 7

theorem controlToBuild_inRange (s : State) : ControlInRange (controlToBuild s) :=
  ⟨minbytes_pos s.mtype 4 (by decide), minbytes_le s.mtype 4 false (by decide), minbytes_pos s.mid 8 (by decide),
   minbytes_le s.mid 8 false (by decide), minbytes_le s.fwd 3 true (by decide), minbytes_le s.body 3 true (by decide),
   minbytes_le s.data 7 true (by decide)⟩

theorem ControlInRange.length {c : ControlWord} (h : ControlInRange c) : 4 ≤ headerLength c ∧ headerLength c ≤ 27 := by
  obtain ⟨h1, h2, h3, h4, h5, h6, h7⟩ := h
  simp only [headerLength, Config.CTRL_BYTES]; omega

/-- The control bytes as sums (`30_encoding.md` R78). -/
theorem ControlInRange.byte0 {c : ControlWord} (h : ControlInRange c) :
    (controlByte0 c).toNat = c.pkgType.toNat * 16 + (c.msgTypeBytes - 1) * 4 + c.fwdBytes := by
  obtain ⟨h1, h2, -, -, h5, -, -⟩ := h
  have ht : BitVec.ofNat 8 (c.msgTypeBytes - 1) = (BitVec.ofNat 2 (c.msgTypeBytes - 1)).setWidth 8 := by
    apply BitVec.eq_of_toNat_eq; simp; omega
  have hf : BitVec.ofNat 8 c.fwdBytes = (BitVec.ofNat 2 c.fwdBytes).setWidth 8 := by
    apply BitVec.eq_of_toNat_eq; simp; omega
  rw [controlByte0, ht, hf, Wire.byte0_toNat]
  simp only [BitVec.toNat_ofNat]; omega

theorem ControlInRange.byte1 {c : ControlWord} (h : ControlInRange c) :
    (controlByte1 c).toNat = (c.msgIdBytes - 1) * 32 + c.bodyBytes * 8 + c.dataBytes := by
  obtain ⟨-, -, h3, h4, -, h6, h7⟩ := h
  have hi : BitVec.ofNat 8 (c.msgIdBytes - 1) = (BitVec.ofNat 3 (c.msgIdBytes - 1)).setWidth 8 := by
    apply BitVec.eq_of_toNat_eq; simp; omega
  have hb : BitVec.ofNat 8 c.bodyBytes = (BitVec.ofNat 2 c.bodyBytes).setWidth 8 := by
    apply BitVec.eq_of_toNat_eq; simp; omega
  have hd : BitVec.ofNat 8 c.dataBytes = (BitVec.ofNat 3 c.dataBytes).setWidth 8 := by
    apply BitVec.eq_of_toNat_eq; simp; omega
  rw [controlByte1, hi, hb, hd, Wire.byte1_toNat]
  simp only [BitVec.toNat_ofNat]; omega

/-! ### The bytes BUILD writes -/

theorem writeControl_only_buf (c : ControlWord) (s : State) :
    writeControl c s = { s with buf := (writeControl c s).buf } := rfl

/-- The control word stands at offsets 0 and 1; no other byte moved. -/
theorem readByte_writeControl (c : ControlWord) (s : State) (k : Nat) :
    (writeControl c s).readByte k =
      if k = 0 then controlByte0 c else if k = 1 then controlByte1 c else s.readByte k := by
  simp only [writeControl, State.readByte_writeByte]
  by_cases h0 : k = 0
  · simp [h0]
  · by_cases h1 : k = 1 <;> simp [h0, h1]

theorem writeFields_only_buf (c : ControlWord) (s : State) :
    writeFields c s = { s with buf := (writeFields c s).buf } := by
  simp only [writeFields]
  rw [memWrite_only_buf, memWrite_only_buf (memWrite _ _ _ _), memWrite_only_buf (memWrite _ _ _ _),
    memWrite_only_buf (memWrite _ _ _ _), memWrite_only_buf s]

/-- Nothing before the fields or after the header is written. -/
theorem readByte_writeFields_outside (c : ControlWord) (s : State) (k : Nat) (h : k < 2 ∨ headerLength c ≤ k) :
    (writeFields c s).readByte k = s.readByte k := by
  simp only [headerLength, Config.CTRL_BYTES] at h
  simp only [writeFields, readByte_memWrite, dataAt, bodyAt, fwdAt, msgIdAt, msgTypeAt, Config.CTRL_BYTES]
  repeat rw [if_neg (by omega)]

/-- The bytes of the fields are the values' own, whatever stood there. -/
theorem readByte_writeFields_inside (c : ControlWord) (s t : State) (k : Nat) (h2 : 2 ≤ k) (hl : k < headerLength c)
    (hr : ∀ r, r ≠ .val → r ≠ .res → s.readReg r = t.readReg r) :
    (writeFields c s).readByte k = (writeFields c t).readByte k := by
  simp only [headerLength, Config.CTRL_BYTES] at hl
  simp only [writeFields, readByte_memWrite, dataAt, bodyAt, fwdAt, msgIdAt, msgTypeAt, Config.CTRL_BYTES,
    hr .mtype (by decide) (by decide), hr .mid (by decide) (by decide), hr .fwd (by decide) (by decide),
    hr .body (by decide) (by decide), hr .data (by decide) (by decide)]
  split
  · rfl
  · split
    · rfl
    · split
      · rfl
      · split
        · rfl
        · rw [if_pos (by omega), if_pos (by omega)]

/-- Each field is held where it starts. -/
theorem writeFields_holds (c : ControlWord) (s : State) (hm : (s.readReg .mtype).toNat < 2 ^ (8 * c.msgTypeBytes))
    (hi : (s.readReg .mid).toNat < 2 ^ (8 * c.msgIdBytes)) (hf : (s.readReg .fwd).toNat < 2 ^ (8 * c.fwdBytes))
    (hb : (s.readReg .body).toNat < 2 ^ (8 * c.bodyBytes)) (hd : (s.readReg .data).toNat < 2 ^ (8 * c.dataBytes)) :
    HoldsField (writeFields c s) (msgTypeAt c) c.msgTypeBytes (s.readReg .mtype) ∧
    HoldsField (writeFields c s) (msgIdAt c) c.msgIdBytes (s.readReg .mid) ∧
    HoldsField (writeFields c s) (fwdAt c) c.fwdBytes (s.readReg .fwd) ∧
    HoldsField (writeFields c s) (bodyAt c) c.bodyBytes (s.readReg .body) ∧
    HoldsField (writeFields c s) (dataAt c) c.dataBytes (s.readReg .data) := by
  simp only [writeFields, dataAt, bodyAt, fwdAt, msgIdAt]
  refine ⟨?_, ?_, ?_, ?_, memWrite_holdsField _ _ _ _ hd⟩
  · exact ((((memWrite_holdsField _ _ _ _ hm).memWrite _ _ _ (.inl (Nat.le_refl _))).memWrite _ _ _
      (.inl (by omega))).memWrite _ _ _ (.inl (by omega))).memWrite _ _ _ (.inl (by omega))
  · exact (((memWrite_holdsField _ _ _ _ hi).memWrite _ _ _ (.inl (Nat.le_refl _))).memWrite _ _ _
      (.inl (by omega))).memWrite _ _ _ (.inl (by omega))
  · exact ((memWrite_holdsField _ _ _ _ hf).memWrite _ _ _ (.inl (Nat.le_refl _))).memWrite _ _ _ (.inl (by omega))
  · exact (memWrite_holdsField _ _ _ _ hb).memWrite _ _ _ (.inl (Nat.le_refl _))

theorem writeFields_wf (c : ControlWord) (s : State) (h : Memory.wf s.buf = true)
    (hl : headerLength c ≤ Config.BUFCAP) : Memory.wf (writeFields c s).buf = true := by
  simp only [headerLength, Config.CTRL_BYTES] at hl
  simp only [writeFields, dataAt, bodyAt, fwdAt, msgIdAt, msgTypeAt, Config.CTRL_BYTES]
  exact memWrite_wf _ _ _ _ (memWrite_wf _ _ _ _ (memWrite_wf _ _ _ _ (memWrite_wf _ _ _ _
    (memWrite_wf _ _ _ _ h (by omega)) (by omega)) (by omega)) (by omega)) (by omega)

theorem writeControl_wf (c : ControlWord) (s : State) (h : Memory.wf s.buf = true) :
    Memory.wf (writeControl c s).buf = true :=
  Memory.wf_insert _ _ _ (Memory.wf_insert _ _ _ h (by decide)) (by decide)

/-! ### BUILD and PARSE, case by case -/

theorem overflows_iff (s : State) : overflows s = false ↔ FieldsFit s := by
  simp only [overflows, FieldsFit, Bool.or_eq_false_iff, decide_eq_false_iff_not, Nat.not_le, and_assoc]
  rfl

/-- What BUILD leaves when the values fit. -/
def built (s : State) : State :=
  { s with
    buf := (writeFields (controlToBuild s) (writeControl (controlToBuild s) s)).buf
    blen := BitVec.ofNat 8 (headerLength (controlToBuild s))
    res := BitVec.ofNat 64 (headerLength (controlToBuild s))
    code := 0#3 }

theorem execBuild_fits (s : State) (h : FieldsFit s) : execBuild s = .next (built s) := by
  rw [execBuild, (overflows_iff s).mpr h]
  simp only [Bool.false_eq_true, if_false, built]
  rw [writeFields_only_buf, writeControl_only_buf]
  rfl

theorem execBuild_overflow (s : State) (h : ¬ FieldsFit s) : execBuild s = .next { s with code := 2#3 } := by
  have : overflows s = true := by
    cases ho : overflows s
    · exact absurd ((overflows_iff s).mp ho) h
    · rfl
  rw [execBuild, this]; rfl

theorem readByte_built (s : State) (k : Nat) :
    (built s).readByte k = (writeFields (controlToBuild s) (writeControl (controlToBuild s) s)).readByte k := by
  refine State.readByte_congr _ _ _ rfl ?_
  rw [writeFields_only_buf]; rfl

/-- What PARSE leaves when the header is whole. -/
def parsed (s : State) : State :=
  let c := controlInBuffer s
  { s with
    pkg := c.pkgType.setWidth 64
    mtype := memRead s (msgTypeAt c) c.msgTypeBytes
    mid := memRead s (msgIdAt c) c.msgIdBytes
    fwd := memRead s (fwdAt c) c.fwdBytes
    body := memRead s (bodyAt c) c.bodyBytes
    data := memRead s (dataAt c) c.dataBytes
    res := BitVec.ofNat 64 (headerLength c)
    code := 0#3 }

theorem execParse_whole (s : State) (h : wireLength s ≤ s.blen.toNat) : execParse s = .next (parsed s) := by
  have hl := (wireLength_bounds s).1
  rw [execParse, if_neg (by simp only [Config.CTRL_BYTES]; omega)]
  simp only [headerLength_inBuffer, if_neg (Nat.not_lt.mpr h)]
  rfl

theorem execParse_short (s : State) (h : s.blen.toNat < 2 ∨ s.blen.toNat < wireLength s) :
    execParse s = .next { s with code := 1#3 } := by
  rw [execParse]
  split
  · rfl
  · rename_i h2
    simp only [headerLength_inBuffer]
    rw [if_pos (by simp only [Config.CTRL_BYTES] at h2; omega)]; rfl

end Sys2Proof.Machine
end

