-- ==== Sys2Proof/Laws/PerInstr.lean ====
section
/-! SUPPORT. Statements made per instruction (`LAWS.json`). -/

namespace Sys2Proof.Laws.CommandWord

/-- The value an instruction is written to `CMD` as has bits 63:16 zero (`30_encoding.md` R83, R86 item 1). -/
def Statement (i : Instr) : Prop := ∀ v, encode i = .command v → v.toNat < 2 ^ 16

theorem of_widened (c : BitVec 16) (v : Word) (h : Encoding.command (c.setWidth 64) = .command v) : v.toNat < 2 ^ 16 := by
  injection h with h
  subst h
  have := c.isLt
  simp only [BitVec.toNat_setWidth]
  omega

theorem width (z : Bool) (w : BitVec 4) : Statement (.width z w) := fun v h => of_widened _ v h
theorem zzenc : Statement .zzenc := fun v h => of_widened _ v h
theorem zzdec : Statement .zzdec := fun v h => of_widened _ v h
theorem fenc (off : BitVec 8) (w : BitVec 4) : Statement (.fenc off w) := fun v h => of_widened _ v h
theorem fdec (off : BitVec 8) (w : BitVec 4) : Statement (.fdec off w) := fun v h => of_widened _ v h
theorem build : Statement .build := fun v h => of_widened _ v h
theorem parse : Statement .parse := fun v h => of_widened _ v h
theorem reservedOp7 (r : BitVec 13) : Statement (.reservedOp7 r) := fun v h => of_widened _ v h
theorem wmsgid : Statement .wmsgid := fun v h => of_widened _ v h
theorem wmsgtype : Statement .wmsgtype := fun v h => of_widened _ v h
theorem wfwd : Statement .wfwd := fun v h => of_widened _ v h
theorem wbody : Statement .wbody := fun v h => of_widened _ v h
theorem wdata : Statement .wdata := fun v h => of_widened _ v h
theorem hdrByte0 (p : BitVec 4) (t f : BitVec 2) : Statement (.hdrByte0 p t f) := fun v h => by cases h
theorem hdrByte1 (i : BitVec 3) (b : BitVec 2) (d : BitVec 3) : Statement (.hdrByte1 i b d) := fun v h => by cases h

end Sys2Proof.Laws.CommandWord
end

