-- ==== Sys2Proof/Laws/Transactions.lean ====
section
/-! SUPPORT. One step, said once: what the block does with each host transaction, and that no instruction stops. -/

namespace Sys2Proof.Machine

theorem step_idle (s : State) (h : s.pending = []) : step s = .next s := by
  simp only [step, perform, h]

theorem step_cons (s : State) (tx : HostTx) (rest : List HostTx) (h : s.pending = tx :: rest) :
    step s = transact tx { s with pending := rest } := by
  simp only [step, perform, h]

/-- The buffer's window of the address map (`10_state.md` R33). -/
theorem locate_buf (a : BitVec 9) (k : Nat) (hk : k < Config.BUFCAP) (h : a.toNat = 0x100 + k) : locate a = .buf k := by
  have hall : ∀ a : BitVec 9, 0x100 ≤ a.toNat → a.toNat < 0x100 + Config.BUFCAP → locate a = .buf (a.toNat - 0x100) := by
    decide
  rw [hall a (by omega) (by omega), h, Nat.add_sub_cancel_left]

/-- The holes of the address map (`10_state.md` R33). -/
theorem locate_unmapped (a : BitVec 9)
    (h : (0x00B ≤ a.toNat ∧ a.toNat < 0x100) ∨ 0x100 + Config.BUFCAP ≤ a.toNat) : locate a = .unmapped := by
  revert h a; decide

/-- A buffer location of the address map lies in the buffer. -/
theorem locate_buf_lt (a : BitVec 9) (k : Nat) (h : locate a = .buf k) : k < Config.BUFCAP := by
  have hall : ∀ a : BitVec 9, (match locate a with | .buf k => decide (k < Config.BUFCAP) | _ => true) = true := by
    decide
  have := hall a
  rw [h] at this
  exact of_decide_eq_true this

/-- Every instruction answers a next state. -/
theorem exec_next (i : Instr) (s : State) : ∃ t, exec i s = .next t := by
  cases i <;>
    simp only [exec, execWidth, execWmsgid, execWmsgtype, execWfwd, execWbody, execWdata, calcWidth, execZzenc, execZzdec,
      execFenc, execFdec, execReservedOp7, execHdrByte0, execHdrByte1, complete, raise] <;>
    (try split) <;> (try split) <;> first | exact ⟨_, rfl⟩ | skip
  · by_cases h : FieldsFit s
    · exact ⟨_, execBuild_fits s h⟩
    · exact ⟨_, execBuild_overflow s h⟩
  · by_cases h : wireLength s ≤ s.blen.toNat
    · exact ⟨_, execParse_whole s h⟩
    · exact ⟨_, execParse_short s (.inr (by omega))⟩

/-- What `exec` can do, said once: each command raises one of its exceptions or completes, and a control byte is stored.
Every later claim about an instruction follows from its line here. -/
theorem exec_cases (i : Instr) (s : State) :
    (i.isCommand = true ∧ ∃ e, e ≠ Completion.ok ∧ exec i s = raise e s) ∨
    match i with
    | .width z w => exec i s = .next { s with res := BitVec.ofNat 64 (minbytes s.val w.toNat z), code := 0#3 }
    | .wmsgid => exec i s = .next { s with res := BitVec.ofNat 64 (minbytes s.val 8 false), code := 0#3 }
    | .wmsgtype => exec i s = .next { s with res := BitVec.ofNat 64 (minbytes s.val 4 false), code := 0#3 }
    | .wfwd => exec i s = .next { s with res := BitVec.ofNat 64 (minbytes s.val 3 true), code := 0#3 }
    | .wbody => exec i s = .next { s with res := BitVec.ofNat 64 (minbytes s.val 3 true), code := 0#3 }
    | .wdata => exec i s = .next { s with res := BitVec.ofNat 64 (minbytes s.val 7 true), code := 0#3 }
    | .zzenc => exec i s = .next { s with res := zzenc s.val, code := 0#3 }
    | .zzdec => exec i s = .next { s with res := zzdec s.val, code := 0#3 }
    | .fenc off w => off.toNat + w.toNat ≤ Config.BUFCAP ∧ w.toNat ≤ Config.MAXW ∧
        exec i s = .next { s with buf := (memWrite s off.toNat w.toNat s.val).buf, code := 0#3 }
    | .fdec off w => off.toNat + w.toNat ≤ Config.BUFCAP ∧ w.toNat ≤ Config.MAXW ∧
        exec i s = .next { s with res := memRead s off.toNat w.toNat, code := 0#3 }
    | .build => FieldsFit s ∧ exec i s = .next (built s)
    | .parse => wireLength s ≤ s.blen.toNat ∧ exec i s = .next (parsed s)
    | .reservedOp7 _ => False
    | .hdrByte0 _ _ _ => ∃ b, exec i s = .next (s.writeByte 0 b)
    | .hdrByte1 _ _ _ => ∃ b, exec i s = .next (s.writeByte 1 b) := by
  cases i with
  | width z w =>
    by_cases h : legalCap w = true
    · exact .inr (calcWidth_legal z w s h)
    · exact .inl ⟨rfl, .illegalCommand, by decide, by simp only [exec, execWidth, calcWidth, h]; rfl⟩
  | wmsgid => exact .inr rfl
  | wmsgtype => exact .inr rfl
  | wfwd => exact .inr rfl
  | wbody => exact .inr rfl
  | wdata => exact .inr rfl
  | zzenc => exact .inr rfl
  | zzdec => exact .inr rfl
  | fenc off w =>
    by_cases h : legalWidth w = true
    · by_cases hb : inBounds off.toNat w.toNat = true
      · refine .inr ⟨by simpa [inBounds] using hb, by simpa [legalWidth] using h, ?_⟩
        simp only [exec, execFenc, h, hb, if_true, complete_eq]
        rw [memWrite_only_buf]; rfl
      · exact .inl ⟨rfl, .bufferBounds, by decide, by simp only [exec, execFenc, h, hb]; rfl⟩
    · exact .inl ⟨rfl, .illegalCommand, by decide, by simp only [exec, execFenc, h]; rfl⟩
  | fdec off w =>
    by_cases h : legalWidth w = true
    · by_cases hb : inBounds off.toNat w.toNat = true
      · refine .inr ⟨by simpa [inBounds] using hb, by simpa [legalWidth] using h, ?_⟩
        simp only [exec, execFdec, h, hb, if_true]; rfl
      · exact .inl ⟨rfl, .bufferBounds, by decide, by simp only [exec, execFdec, h, hb]; rfl⟩
    · exact .inl ⟨rfl, .illegalCommand, by decide, by simp only [exec, execFdec, h]; rfl⟩
  | build =>
    by_cases h : FieldsFit s
    · exact .inr ⟨h, execBuild_fits s h⟩
    · exact .inl ⟨rfl, .fieldOverflow, by decide, execBuild_overflow s h⟩
  | parse =>
    by_cases h : wireLength s ≤ s.blen.toNat
    · exact .inr ⟨h, execParse_whole s h⟩
    · exact .inl ⟨rfl, .incompleteHeader, by decide, execParse_short s (.inr (by omega))⟩
  | reservedOp7 r => exact .inl ⟨rfl, .illegalCommand, by decide, rfl⟩
  | hdrByte0 p t f => exact .inr ⟨_, rfl⟩
  | hdrByte1 i b d => exact .inr ⟨_, rfl⟩

end Sys2Proof.Machine
end

