-- ==== Sys2Proof/Machine/Assembly.lean ====
section
/-! DEFINITION. The assembler's text: how each line of `30_encoding.md` R88 to R90 is spelled, with decimal operands. -/

namespace Sys2Proof.Machine

/-- A register's name (`10_state.md` R21). -/
def regName : Reg → String
  | .pkg => "PKG"
  | .mtype => "MTYPE"
  | .mid => "MID"
  | .fwd => "FWD"
  | .body => "BODY"
  | .data => "DATA"
  | .val => "VAL"
  | .res => "RES"

/-- `PUTB off, byte` (`30_encoding.md` R90). -/
def putbText (off : Nat) (v : Nat) : String := "PUTB " ++ toString off ++ ", " ++ toString v

/-- A command as text (`30_encoding.md` R88, R89). `op` 7 has no mnemonic and is issued by `CMD value`; a header byte is
put into the buffer by `PUTB`. -/
def instrText : Instr → String
  | .width false w => "WIDTH " ++ toString w.toNat
  | .width true w => "WIDTH " ++ toString w.toNat ++ ", Z"
  | .zzenc => "ZZENC"
  | .zzdec => "ZZDEC"
  | .fenc off w => "FENC " ++ toString off.toNat ++ ", " ++ toString w.toNat
  | .fdec off w => "FDEC " ++ toString off.toNat ++ ", " ++ toString w.toNat
  | .build => "BUILD"
  | .parse => "PARSE"
  | .reservedOp7 r => "CMD " ++ toString (7#3 ++ r).toNat
  | .wmsgid => "WMSGID"
  | .wmsgtype => "WMSGTYPE"
  | .wfwd => "WFWD"
  | .wbody => "WBODY"
  | .wdata => "WDATA"
  | .hdrByte0 p t f => putbText 0 (Wire.byte0 (p.setWidth 8) (t.setWidth 8) (f.setWidth 8)).toNat
  | .hdrByte1 i b d => putbText 1 (Wire.byte1 (i.setWidth 8) (b.setWidth 8) (d.setWidth 8)).toNat

/-- The bytes of a `LOAD` line. -/
def bytesText : List Byte → String
  | [] => ""
  | b :: bs => " " ++ toString b.toNat ++ bytesText bs

/-- A line of a program as text (`30_encoding.md` R88, R90). -/
def lineText : AsmLine → String
  | .instr i => instrText i
  | .cmd v => "CMD " ++ toString v.toNat
  | .set r v => "SET " ++ regName r ++ ", " ++ toString v.toNat
  | .get r => "GET " ++ regName r
  | .putb off v => putbText off.toNat v.toNat
  | .getb off => "GETB " ++ toString off.toNat
  | .setlen v => "SETLEN " ++ toString v.toNat
  | .getlen => "GETLEN"
  | .getst => "GETST"
  | .reset => "RESET"
  | .load bs => "LOAD" ++ bytesText bs

end Sys2Proof.Machine
end

