-- ==== Sys2Proof/Tests/Slice0.lean ====
section
/-! SUPPORT. Small tests. Expected results come from the spec: the encodings of `30_encoding.md` and the vectors of
`95_test_vectors.md` (named in each comment). The last part shows a state and operands that meet the hypotheses of each
statement. -/

namespace Sys2Proof.Tests

open Machine

/-! ### Helpers -/

/-- The state after, if the outcome has one. -/
def after : Host.Outcome State Fault Refusal → Option State
  | .next s => some s
  | .fault _ => none
  | .refused _ => none

/-- The buffer of the vectors of Parts 4 and 7: `buf[i]` = i. -/
def countedBuf : Memory := (List.range 32).map fun k => (k, BitVec.ofNat 8 k)

/-- The start state of Parts 4 and 7. -/
def start : State := { State.reset with val := 0x1122334455667788#64, buf := countedBuf }

/-- A state with a value to calculate on. -/
def withVal (v : Word) : State := { State.reset with val := v }

/-- The six values of a message. -/
def withSix (a b c d e f : Word) : State :=
  { State.reset with pkg := a, mtype := b, mid := c, fwd := d, body := e, data := f }

/-- A buffer that holds the given bytes from offset 0 on, all of them available. -/
def received (bs : List Byte) : State :=
  { State.reset with buf := bs.zipIdx.map fun p => (p.2, p.1), blen := BitVec.ofNat 8 bs.length, val := 0x7777#64 }

/-- The first `n` bytes of the buffer. -/
def bytesOf (n : Nat) (s : State) : List Byte := (List.range n).map s.readByte

/-- The six values and the length. -/
def sevenOf (s : State) : List Word := [s.pkg, s.mtype, s.mid, s.fwd, s.body, s.data, s.res]

/-- The state with one transaction to perform. -/
def about (tx : HostTx) (s : State) : State := { s with pending := [tx] }

/-! ### Well-formedness: each check refuses an ill-formed term -/

theorem test_wf_width_cap_zero : Instr.wellFormed (.width false 0#4) = false := by decide
theorem test_wf_width_cap_nine : Instr.wellFormed (.width true 9#4) = false := by decide
theorem test_wf_fenc_width_nine : Instr.wellFormed (.fenc 0#8 9#4) = false := by decide
theorem test_wf_fdec_width_nine : Instr.wellFormed (.fdec 0#8 9#4) = false := by decide
theorem test_wf_reserved : Instr.wellFormed (.reservedOp7 0#13) = false := by decide
theorem test_wf_memory_order : Memory.wf [(1, 0#8), (0, 0#8)] = false := by decide
theorem test_wf_memory_repeat : Memory.wf [(1, 0#8), (1, 0#8)] = false := by decide
theorem test_wf_memory_range : Memory.wf [(32, 0#8)] = false := by decide

/-! ### Decoding: words written out bit by bit from R71, R72, R83, R85 (op z w off) -/

theorem test_decode_width : decode (.command 0b000_1_0111_00000000#64) = .ok (.width true 7#4) := by decide
theorem test_decode_zzenc : decode (.command 0b001_0_0000_00000000#64) = .ok .zzenc := by decide
theorem test_decode_zzdec : decode (.command 0b010_0_0000_00000000#64) = .ok .zzdec := by decide
theorem test_decode_fenc : decode (.command 0b011_0_0100_00000010#64) = .ok (.fenc 2#8 4#4) := by decide
theorem test_decode_fdec : decode (.command 0b100_0_1000_00011000#64) = .ok (.fdec 24#8 8#4) := by decide
theorem test_decode_build : decode (.command 0b101_0_0000_00000000#64) = .ok .build := by decide
theorem test_decode_parse : decode (.command 0b110_0_0000_00000000#64) = .ok .parse := by decide
theorem test_decode_reserved :
    decode (.command 0b111_0_0000_00000001#64) = .ok (.reservedOp7 1#13) := by decide
theorem test_decode_wmsgid : decode (.command 0b000_0_1000_00000000#64) = .ok (Instr.expand .wmsgid) := by decide
theorem test_decode_wmsgtype : decode (.command 0b000_0_0100_00000000#64) = .ok (Instr.expand .wmsgtype) := by decide
theorem test_decode_wfwd : decode (.command 0b000_1_0011_00000000#64) = .ok (Instr.expand .wfwd) := by decide
theorem test_decode_wbody : decode (.command 0b000_1_0011_00000000#64) = .ok (Instr.expand .wbody) := by decide
theorem test_decode_wdata : decode (.command 0b000_1_0111_00000000#64) = .ok (Instr.expand .wdata) := by decide
/-- B5's control word, `24 9A`. -/
theorem test_decode_hdrByte0 : decode (.wire0 0b0010_01_00#8) = .ok (.hdrByte0 2#4 1#2 0#2) := by decide
theorem test_decode_hdrByte1 : decode (.wire1 0b100_11_010#8) = .ok (.hdrByte1 4#3 3#2 2#3) := by decide
/-- C28, C8, C6, C16: each rejection by its name. -/
theorem test_decode_rejections :
    decode (.command 0x1A000#64) = .error .upperBits ∧ decode (.command 0x0801#64) = .error .mustBeZero ∧
    decode (.command 0x0900#64) = .error .cap ∧ decode (.command 0x6900#64) = .error .fieldWidth := by decide
/-- R88's table of words. -/
theorem test_encode_words :
    encode (.width true 3#4) = .command 0x1300#64 ∧ encode (.fenc 9#8 3#4) = .command 0x6309#64 ∧
    encode (.fdec 9#8 3#4) = .command 0x8309#64 ∧ encode .parse = .command 0xC000#64 := by decide
theorem test_table_words :
    decodeTableWord 16 0xA000 = some .build ∧ decodeTableWord 16 0xE000 = some (.reservedOp7 0#13) ∧
    decodeTableWord 16 0x3000 = none ∧ decodeTableWord 8 0xFF = some (.hdrByte0 15#4 3#2 3#2) := by decide

/-! ### One command on a small state -/

/-- W11: `WIDTH 3, Z` saturates at the cap. -/
theorem test_width_saturates :
    (after (exec (.width true 3#4) (withVal 0x1000000#64))).map (·.res) = some 3#64 := by decide
/-- W29: cap 0 ends in code 3 and leaves `RES`. -/
theorem test_width_cap_zero :
    (after (exec (.width false 0#4) (withVal 5#64))).map (fun s => (s.code, s.res)) = some (3#3, 0#64) := by decide
/-- W17: `WMSGID`. -/
theorem test_wmsgid : (after (exec .wmsgid (withVal 0x100000000000000#64))).map (·.res) = some 8#64 := by decide
/-- W12: `WMSGTYPE`. -/
theorem test_wmsgtype : (after (exec .wmsgtype (withVal 0xFFFFFFFF#64))).map (·.res) = some 4#64 := by decide
/-- W3: `WFWD` of 0. -/
theorem test_wfwd : (after (exec .wfwd (withVal 0#64))).map (·.res) = some 0#64 := by decide
/-- W9: `WBODY`. -/
theorem test_wbody : (after (exec .wbody (withVal 0x10000#64))).map (·.res) = some 3#64 := by decide
/-- W14: `WDATA`. -/
theorem test_wdata : (after (exec .wdata (withVal 0xFFFFFFFFFFFFFF#64))).map (·.res) = some 7#64 := by decide
/-- Z12: `ZZENC`. -/
theorem test_zzenc :
    (after (exec .zzenc (withVal 0x8000000000000001#64))).map (·.res) = some 0xFFFFFFFFFFFFFFFD#64 := by decide
/-- Z7: `ZZDEC`. -/
theorem test_zzdec :
    (after (exec .zzdec (withVal 0xFFFFFFFFFFFFFFFD#64))).map (·.res) = some 0x8000000000000001#64 := by decide
/-- F1: `FENC 2, 4`, and the bytes beside it. -/
theorem test_fenc : (after (exec (.fenc 2#8 4#4) start)).map (bytesOf 7) =
    some [0x00#8, 0x01#8, 0x88#8, 0x77#8, 0x66#8, 0x55#8, 0x06#8] := by decide
/-- F10: `FENC 255, 8` is out of bounds, without wrap. -/
theorem test_fenc_bounds :
    (after (exec (.fenc 255#8 8#4) start)).map (fun s => (s.code, s.buf)) = some (4#3, countedBuf) := by decide
/-- F11: `FDEC 24, 8`. -/
theorem test_fdec : (after (exec (.fdec 24#8 8#4) start)).map (·.res) = some 0x1F1E1D1C1B1A1918#64 := by decide
/-- F12: `FDEC 25, 8` is out of bounds. -/
theorem test_fdec_bounds :
    (after (exec (.fdec 25#8 8#4) start)).map (fun s => (s.code, s.res)) = some (4#3, 0#64) := by decide
/-- B5: five different widths. -/
theorem test_build :
    (after (exec .build (withSix 2#64 300#64 0x0102030405#64 0#64 70000#64 256#64))).map
      (fun s => (bytesOf 14 s, s.blen, s.res)) =
    some ([0x24#8, 0x9A#8, 0x2C#8, 0x01#8, 0x05#8, 0x04#8, 0x03#8, 0x02#8, 0x01#8, 0x70#8, 0x11#8, 0x01#8, 0x00#8, 0x01#8],
      14#8, 14#64) := by decide
/-- B14: `BODY` = 2^24. -/
theorem test_build_overflow :
    (after (exec .build (withSix 0#64 0#64 0#64 0#64 0x1000000#64 0#64))).map (fun s => (s.code, s.buf)) =
    some (2#3, []) := by decide
/-- X8: a header that is not canonical. -/
theorem test_parse :
    (after (exec .parse (received [0x0D#8, 0x09#8, 0x05#8, 0x00#8, 0x00#8, 0x00#8, 0x07#8, 0x09#8, 0x01#8, 0x02#8]))).map
      sevenOf = some [0#64, 5#64, 7#64, 9#64, 1#64, 2#64, 10#64] := by decide
/-- X3: one byte short. -/
theorem test_parse_short :
    (after (exec .parse (received [0x11#8, 0x09#8, 0x14#8, 0x32#8, 0x03#8, 0x04#8]))).map (fun s => (s.code, s.val)) =
    some (1#3, 0x7777#64) := by decide
/-- C27: the reserved `op`. -/
theorem test_reserved : (after (exec (.reservedOp7 0x1FFF#13) start)).map (·.code) = some 3#3 := by decide
/-- B8's byte 0, `75`. -/
theorem test_hdrByte0 : (after (exec (.hdrByte0 7#4 1#2 1#2) start)).map (bytesOf 2) = some [0x75#8, 0x01#8] := by decide
/-- B8's byte 1, `73`. -/
theorem test_hdrByte1 : (after (exec (.hdrByte1 3#3 2#2 3#3) start)).map (bytesOf 2) = some [0x00#8, 0x73#8] := by decide

/-! ### Host transactions, one step -/

/-- H3: only `v[7:0]` is stored. -/
theorem test_host_putb : (after (step (about (.write 0x105#9 0x1AB#64) start))).map (·.readByte 5) = some 0xAB#8 := by
  decide
/-- H5: a length above `BUFCAP` is ignored. -/
theorem test_host_setlen_above :
    (after (step (about (.write 0x009#9 33#64) { start with blen := 7#8 }))).map (·.blen) = some 7#8 := by decide
/-- H6: the whole value is compared. -/
theorem test_host_setlen_wide :
    (after (step (about (.write 0x009#9 0x100000007#64) start))).map (·.blen) = some 0#8 := by decide
/-- H12: a command's code is returned. -/
theorem test_host_cmd_code :
    (after (step (about (.write 0x00A#9 0xE000#64) start))).map (·.replies) = some [.code 3#3] := by decide
/-- H9, H10: the ends of the buffer's window. -/
theorem test_host_window :
    hostRead 0x0FF#9 start = 0#64 ∧ hostRead 0x100#9 start = 0#64 ∧ hostRead 0x11F#9 start = 31#64 ∧
    hostRead 0x120#9 start = 0#64 := by decide
/-- A table word placed for the next step is the command that runs (C1). -/
theorem test_withFetchWord :
    (after (step (start.withFetchWord 16 0x0800))).map (fun s => (s.res, s.code)) = some (8#64, 0#3) := by decide
/-- R88, R90: lines and their transactions. -/
theorem test_assemble :
    assemble (.instr .wdata) = [.write 0x00A#9 0x1700#64] ∧ assemble (.putb 31#8 0x5A#64) = [.write 0x11F#9 0x5A#64] ∧
    assemble (.load [0x11#8, 0x09#8]) =
      [.write 0x100#9 0x11#64, .write 0x101#9 0x09#64, .write 0x009#9 2#64] := by decide
theorem test_text : lineText (.instr (.fenc 9#8 3#4)) = "FENC 9, 3" ∧ lineText (.instr (.width true 3#4)) = "WIDTH 3, Z" ∧
    lineText (.set .mid 50#64) = "SET MID, 50" := by decide

/-! ### Witnesses: the hypotheses of each statement can be met -/

theorem witness_ResetTransactionClearsBlock : (about .reset start).pending = .reset :: [] := rfl
theorem witness_BlockDoesNothingOnItsOwn :
    State.reset.pending = [] ∧ (about (.read 0x100#9) start).pending = .read 0x100#9 :: [] := ⟨rfl, rfl⟩
/-- An address for each clause, at the ends of its range. -/
theorem witness_HostAddressMap :
    (about (.read 0x11F#9) start).pending = .read 0x11F#9 :: [] ∧
    (about (.write 0x11F#9 5#64) start).pending = .write 0x11F#9 5#64 :: [] ∧
    (0x000#9).toNat = 0 ∧ (0x001#9).toNat = 1 ∧ (0x002#9).toNat = 2 ∧ (0x003#9).toNat = 3 ∧ (0x004#9).toNat = 4 ∧
    (0x005#9).toNat = 5 ∧ (0x006#9).toNat = 6 ∧ (0x007#9).toNat = 7 ∧ (0x008#9).toNat = 0x008 ∧
    (0x009#9).toNat = 0x009 ∧ (0x00A#9).toNat = 0x00A ∧
    (0x00B ≤ (0x00B#9).toNat ∧ (0x00B#9).toNat < 0x100) ∧ (0x00B ≤ (0x0FF#9).toNat ∧ (0x0FF#9).toNat < 0x100) ∧
    (0 < Config.BUFCAP ∧ (0x100#9).toNat = 0x100 + 0) ∧ (31 < Config.BUFCAP ∧ (0x11F#9).toNat = 0x100 + 31) ∧
    0x100 + Config.BUFCAP ≤ (0x120#9).toNat ∧ 0x100 + Config.BUFCAP ≤ (0x1FF#9).toNat := by decide
/-- The clauses of a write to `CMD`. -/
theorem witness_HostAddressMap_command :
    decode (.command 0x2000#64) = .ok .zzenc ∧ decode (.command 0x2001#64) = .error .mustBeZero ∧
    ∃ t, exec .zzenc { start with pending := [] } = .next t := ⟨by decide, by decide, _, rfl⟩
theorem witness_ByteReadsBackLastWrite :
    0 < Config.BUFCAP ∧ 31 < Config.BUFCAP ∧
    { start with pending := [.write 0x11F#9 1#64, .read 0x11F#9] }.pending =
      .write (BitVec.ofNat 9 (0x100 + 31)) 1#64 :: .read (BitVec.ofNat 9 (0x100 + 31)) :: [] ∧
    { start with pending := [.write 0x11F#9 1#64, .read 0x100#9] }.pending =
      .write (BitVec.ofNat 9 (0x100 + 31)) 1#64 :: .read (BitVec.ofNat 9 (0x100 + 0)) :: [] := by decide
theorem witness_OnlyCommandsChangeStatus :
    (about (.write 0x009#9 7#64) start).pending = .write 0x009#9 7#64 :: [] ∧ HostTx.write 0x009#9 7#64 ≠ .reset ∧
    (∀ v, HostTx.write 0x009#9 7#64 ≠ .write 0x00A#9 v) ∧ ∃ t, step (about (.write 0x009#9 7#64) start) = .next t :=
  ⟨rfl, by decide, fun v h => by simp at h, _, rfl⟩
theorem witness_LoadLineFillsBuffer :
    [0x11#8, 0x09#8].length ≤ Config.BUFCAP ∧ { start with pending := assemble (.load [0x11#8, 0x09#8]) }.pending =
      assemble (.load [0x11#8, 0x09#8]) ++ [] := ⟨by decide, rfl⟩
theorem witness_StepRunsDecodedCommand :
    (about (.write 0x00A#9 0xA000#64) start).pending = .write 0x00A#9 0xA000#64 :: [] ∧
    decode (.command 0xA000#64) = .ok .build ∧ decode (.command 0x9000#64) = .error .mustBeZero ∧
    (about (.read 0x00A#9) start).pending = .read 0x00A#9 :: [] := ⟨rfl, by decide, by decide, rfl⟩
theorem witness_StepReceivesControlByte :
    (about (.write 0x100#9 0x24#64) start).pending = .write 0x100#9 0x24#64 :: [] ∧
    (about (.write 0x101#9 0x9A#64) start).pending = .write 0x101#9 0x9A#64 :: [] := ⟨rfl, rfl⟩
/-- A value for each of the five conditions of R86, at the first value that meets it, and legal neighbours. -/
theorem witness_IllegalValuesRaise :
    (about (.write 0x00A#9 0x10000#64) start).pending = .write 0x00A#9 0x10000#64 :: [] ∧
    2 ^ 16 ≤ (0x10000#64).toNat ∧ opOf 0xE000#64 = 7 ∧ (mbzViolated 0x0801#64 ∧ mbzViolated 0x3000#64) ∧
    mbzViolated 0x7402#64 ∧ (opOf 0x0000#64 = 0 ∧ wOf 0x0000#64 = 0) ∧ (opOf 0x0900#64 = 0 ∧ 8 < wOf 0x0900#64) ∧
    (opOf 0x6900#64 = 3 ∧ 8 < wOf 0x6900#64) ∧ (opOf 0x8900#64 = 4 ∧ 8 < wOf 0x8900#64) :=
  ⟨rfl, by decide, by decide, by unfold mbzViolated; decide, by unfold mbzViolated; decide, by decide, by decide,
    by decide, by decide⟩
theorem witness_IllegalValuesRaise_legal :
    ¬ IllegalValue 0x0100#64 ∧ ¬ IllegalValue 0x0800#64 ∧ ¬ IllegalValue 0x68FF#64 ∧ ¬ IllegalValue 0xC000#64 := by
  unfold IllegalValue mbzViolated
  exact ⟨by decide, by decide, by decide, by decide⟩
theorem witness_EncodeThenDecode :
    Instr.wellFormed (.width true 8#4) = true ∧ Instr.wellFormed (.fenc 255#8 8#4) = true ∧
    ∃ r, Instr.reservedOp7 0#13 = .reservedOp7 r := ⟨by decide, by decide, _, rfl⟩
theorem witness_DecodeThenEncode : decode (.command 0x8818#64) = .ok (.fdec 24#8 8#4) := by decide
theorem witness_CommandLineRunsItsCommand :
    Instr.wellFormed .wbody = true ∧ Instr.isCommand .wbody = true ∧
    { start with pending := assemble (.instr .wbody) }.pending = assemble (.instr .wbody) ++ [] ∧
    ∃ t, exec .wbody { start with pending := [] } = .next t := ⟨rfl, rfl, rfl, _, rfl⟩
theorem witness_StepKeepsInvariant : start.Inv ∧ ∃ t, step (about (.write 0x11F#9 5#64) start) = .next t :=
  ⟨⟨by decide, by decide, by decide⟩, _, rfl⟩
theorem witness_ExceptionsChangeOnlyStatus :
    Instr.isCommand .parse = true ∧ (after (exec .parse start)).map (·.code) = some 1#3 ∧
    (about (.write 0x00A#9 0xC000#64) start).pending = .write 0x00A#9 0xC000#64 :: [] ∧
    (after (step (about (.write 0x00A#9 0xC000#64) start))).map (·.code) = some 1#3 :=
  ⟨rfl, by decide, rfl, by decide⟩
/-- One value for each row of R185. -/
theorem witness_CodesEachCommandCanReturn :
    (about (.write 0x00A#9 0xC000#64) start).pending = .write 0x00A#9 0xC000#64 :: [] ∧
    (0xC000#64).toNat < 2 ^ 16 ∧ opOf 0x0800#64 = 0 ∧ opOf 0x2000#64 = 1 ∧ opOf 0x4000#64 = 2 ∧ opOf 0x6402#64 = 3 ∧
    opOf 0x8818#64 = 4 ∧ opOf 0xA000#64 = 5 ∧ opOf 0xC000#64 = 6 ∧ opOf 0xFFFF#64 = 7 := ⟨rfl, by decide⟩
theorem witness_InstructionFrame :
    (∃ t, exec (.fenc 2#8 4#4) start = .next t) ∧ mayWriteReg (.fenc 2#8 4#4) .res = false ∧
    Instr.fenc 2#8 4#4 ≠ .build ∧ ¬ mayStoreAt (.fenc 2#8 4#4) start 1 ∧ ¬ mayStoreAt (.fenc 2#8 4#4) start 6 ∧
    Instr.isCommand (.hdrByte0 1#4 0#2 0#2) = false :=
  ⟨⟨_, rfl⟩, rfl, by decide, by simp [mayStoreAt], by simp [mayStoreAt], rfl⟩
theorem witness_NoHiddenState :
    Instr.isCommand .build = true ∧ SameInputs start { start with code := 3#3, replies := [.code 3#3] } :=
  ⟨rfl, fun r => by cases r <;> rfl, rfl, fun _ _ => rfl⟩
theorem witness_StatusIsNotSticky : Instr.isCommand (.fdec 0#8 0#4) = true := rfl
/-- The ends of the legal caps, and the caps beside them. -/
theorem witness_WidthGivesMinimalWidth :
    (1 ≤ (1#4).toNat ∧ (1#4).toNat ≤ 8) ∧ (1 ≤ (8#4).toNat ∧ (8#4).toNat ≤ 8) ∧ (0#4).toNat = 0 ∧ 8 < (9#4).toNat := by
  decide
theorem witness_MinbytesLaws : 1 ≤ 3 ∧ 3 ≤ 8 ∧ (0xFFFFFF#64).toNat < 2 ^ (8 * 3) ∧ 2 ≤ minbytes 0xFFFFFF#64 3 true ∧
    minbytes 1#64 3 true = 1 ∧ (1#64).toNat ≤ (0xFFFFFF#64).toNat ∧ 2 ^ (8 * (3 - 1)) ≤ (0x10000#64).toNat ∧
    minbytes 0#64 3 true = 0 := by decide
theorem witness_ZzencFollowsSignedReading :
    0 ≤ (withVal 3#64).val.toInt ∧ (withVal 0xFFFFFFFFFFFFFFFD#64).val.toInt < 0 := by decide
theorem witness_ZzdecUndoesZigzag :
    (withVal 4#64).val.toNat % 2 = 0 ∧ (withVal 5#64).val.toNat % 2 = 1 := by decide
/-- In bounds at the last byte (F2), an illegal width (F15), out of bounds by one (F3): FENC and FDEC alike. -/
theorem witness_FencStoresLowBytes :
    ((8#4).toNat ≤ 8 ∧ (24#8).toNat + (8#4).toNat ≤ Config.BUFCAP) ∧ 8 < (9#4).toNat ∧
    ((8#4).toNat ≤ 8 ∧ Config.BUFCAP < (25#8).toNat + (8#4).toNat) := by decide
theorem witness_FdecLoadsZeroExtended :
    ((0#4).toNat ≤ 8 ∧ (32#8).toNat + (0#4).toNat ≤ Config.BUFCAP) ∧ 8 < (15#4).toNat ∧
    ((0#4).toNat ≤ 8 ∧ Config.BUFCAP < (33#8).toNat + (0#4).toNat) := by decide
theorem witness_FieldCommandsAreInverse :
    (3#4).toNat ≤ 8 ∧ (9#8).toNat + (3#4).toNat ≤ Config.BUFCAP := by decide
theorem witness_MixedWidthReadsSeeSameBytes : 8 ≤ 8 ∧ 24 + 8 ≤ Config.BUFCAP ∧ 5 + 3 ≤ 8 ∧ 5 < 8 := by decide
/-- B19, B12, B16, B14, B18: each of the five conditions, at its bound; B3: every value at its maximum. -/
theorem witness_BuildRejectsOutOfRange :
    16 ≤ (withSix 16#64 0#64 0#64 0#64 0#64 0#64).pkg.toNat ∧
    2 ^ 32 ≤ (withSix 0#64 0x100000000#64 0#64 0#64 0#64 0#64).mtype.toNat ∧
    2 ^ 24 ≤ (withSix 0#64 0#64 0#64 0x1000000#64 0#64 0#64).fwd.toNat ∧
    2 ^ 24 ≤ (withSix 0#64 0#64 0#64 0#64 0x1000000#64 0#64).body.toNat ∧
    2 ^ 56 ≤ (withSix 0#64 0#64 0#64 0#64 0#64 0x100000000000000#64).data.toNat := by decide
theorem witness_BuildWritesHeader :
    FieldsFit (withSix 15#64 0xFFFFFFFF#64 0xFFFFFFFFFFFFFFFF#64 0xFFFFFF#64 0xFFFFFF#64 0xFFFFFFFFFFFFFF#64) ∧
    ¬ FieldsFit (withSix 16#64 0#64 0#64 0#64 0#64 0#64) := by
  unfold FieldsFit; decide
theorem witness_BuildDependsOnSixRegisters :
    start.pkg = (withVal 0#64).pkg ∧ start.mtype = (withVal 0#64).mtype ∧ start.mid = (withVal 0#64).mid ∧
    start.fwd = (withVal 0#64).fwd ∧ start.body = (withVal 0#64).body ∧ start.data = (withVal 0#64).data ∧
    (after (exec .build start)).map (·.code) = some 0#3 := by decide
theorem witness_ParseUndoesBuild :
    FieldsFit (withSix 1#64 20#64 50#64 3#64 4#64 5#64) ∧
    (after (exec .build (withSix 1#64 20#64 50#64 3#64 4#64 5#64))).map (bytesOf 7) =
      some [0x11#8, 0x09#8, 0x14#8, 0x32#8, 0x03#8, 0x04#8, 0x05#8] := by
  unfold FieldsFit; decide
theorem witness_BuiltHeadersPrefixFree :
    ∃ t t', exec .build start = .next t ∧ exec .build (withVal 3#64) = .next t' ∧ t.code = 0#3 ∧ t'.code = 0#3 ∧
      bytesOf 4 t = bytesOf 4 t' ∧ t.blen = 4#8 := ⟨_, _, rfl, rfl, by decide, by decide, by decide, by decide⟩
/-- X1: exactly as many bytes as the header has; X3, X4, X4b: too few. -/
theorem witness_ParseReadsHeader :
    2 ≤ (received [0x11#8, 0x09#8, 0x14#8, 0x32#8, 0x03#8, 0x04#8, 0x05#8]).blen.toNat ∧
    wireLength (received [0x11#8, 0x09#8, 0x14#8, 0x32#8, 0x03#8, 0x04#8, 0x05#8]) = 7 ∧
    (received [0x11#8, 0x09#8, 0x14#8, 0x32#8, 0x03#8, 0x04#8, 0x05#8]).blen = 7#8 ∧
    (received [0x11#8]).blen.toNat < 2 ∧
    (received [0x11#8, 0x09#8, 0x14#8, 0x32#8, 0x03#8, 0x04#8]).blen.toNat <
      wireLength (received [0x11#8, 0x09#8, 0x14#8, 0x32#8, 0x03#8, 0x04#8]) := by decide
theorem witness_ParsedValuesPassBuildCheck :
    (after (exec .parse (received [0x00#8, 0x00#8, 0x2A#8, 0x07#8]))).map (·.code) = some 0#3 := by decide
theorem witness_ParseDependsOnHeaderBytes :
    (received [0x00#8, 0x00#8, 0x2A#8, 0x07#8, 0x01#8]).blen = (received [0x00#8, 0x00#8, 0x2A#8, 0x07#8, 0x02#8]).blen ∧
    wireLength (received [0x00#8, 0x00#8, 0x2A#8, 0x07#8, 0x01#8]) = 4 ∧
    bytesOf 4 (received [0x00#8, 0x00#8, 0x2A#8, 0x07#8, 0x01#8]) =
      bytesOf 4 (received [0x00#8, 0x00#8, 0x2A#8, 0x07#8, 0x02#8]) := by decide
/-- The widths at both ends of their ranges. -/
theorem witness_ControlWordRoundTrip : ∃ c d : ControlWord,
    (c.msgTypeBytes = 1 ∧ c.msgIdBytes = 1 ∧ c.fwdBytes = 0 ∧ c.bodyBytes = 0 ∧ c.dataBytes = 0) ∧
    (d.msgTypeBytes = 4 ∧ d.msgIdBytes = 8 ∧ d.fwdBytes = 3 ∧ d.bodyBytes = 3 ∧ d.dataBytes = 7) :=
  ⟨⟨0#4, 1, 1, 0, 0, 0⟩, ⟨15#4, 4, 8, 3, 3, 7⟩, by decide, by decide⟩

end Sys2Proof.Tests
end

/-! # The host's transactions and the reset state (`10_state.md`): statements O4, O1, O8 -/

namespace Sys2Proof.Machine

/-! ### The address map, location by location (R33) -/

theorem locate_reg (a : BitVec 9) (r : Reg) (h : a.toNat = regIndex r) : locate a = .reg r := by
  cases r <;> simp only [regIndex] at h <;> simp only [locate, h]

theorem locate_status (a : BitVec 9) (h : a.toNat = 0x008) : locate a = .status := by simp only [locate, h]

theorem locate_blen (a : BitVec 9) (h : a.toNat = 0x009) : locate a = .blen := by simp only [locate, h]

theorem locate_cmd (a : BitVec 9) (h : a.toNat = 0x00A) : locate a = .cmd := by simp only [locate, h]

/-! ### Reads -/

section Read

variable {a : BitVec 9} (s : State)

theorem hostRead_reg {r : Reg} (h : locate a = .reg r) : hostRead a s = s.readReg r := by simp only [hostRead, h]

theorem hostRead_status (h : locate a = .status) : hostRead a s = s.code.setWidth 64 := by simp only [hostRead, h]

theorem hostRead_blen (h : locate a = .blen) : hostRead a s = s.blen.setWidth 64 := by simp only [hostRead, h]

theorem hostRead_cmd (h : locate a = .cmd) : hostRead a s = 0#64 := by simp only [hostRead, h]

theorem hostRead_buf {k : Nat} (h : locate a = .buf k) : hostRead a s = (s.readByte k).setWidth 64 := by
  simp only [hostRead, h]

theorem hostRead_unmapped (h : locate a = .unmapped) : hostRead a s = 0#64 := by simp only [hostRead, h]

/-- What a read returns does not depend on the rest of the host's program. -/
theorem hostRead_pending (a : BitVec 9) (rest : List HostTx) : hostRead a { s with pending := rest } = hostRead a s := by
  unfold hostRead
  cases locate a with
  | reg r => cases r <;> rfl
  | status | blen | cmd | buf _ | unmapped => rfl

/-- A read returns its value and changes nothing of the block. -/
theorem step_read {rest : List HostTx} (h : s.pending = .read a :: rest) :
    step s = .next { s with pending := rest, replies := .value (hostRead a s) :: s.replies } := by
  rw [step_cons s _ rest h, ← hostRead_pending s a rest]
  rfl

end Read

/-! ### Writes -/

theorem runCommand_ok {v : Word} {i : Instr} (s : State) (h : decode (.command v) = .ok i) :
    runCommand v s = exec i s := by simp only [runCommand, h]

theorem runCommand_error {v : Word} {e : Reject} (s : State) (h : decode (.command v) = .error e) :
    runCommand v s = raise .illegalCommand s := by simp only [runCommand, h]

/-- The host's write of `BLEN`: the whole value is compared (R28). -/
theorem hostSetBlen_eq (v : Word) (s : State) :
    hostSetBlen v s = { s with blen := if v.toNat ≤ Config.BUFCAP then BitVec.ofNat 8 v.toNat else s.blen } := by
  unfold hostSetBlen
  split
  · rw [BitVec.ofNat_toNat]; rfl
  · rfl

section Write

variable {s : State} {a : BitVec 9} {v : Word} {rest : List HostTx} (h : s.pending = .write a v :: rest)
include h

theorem step_write : step s = hostWrite a v { s with pending := rest } := step_cons s _ rest h

theorem step_write_reg {r : Reg} (ha : locate a = .reg r) :
    step s = .next ({ s with pending := rest }.setReg r v) := by
  simp only [step_write h, hostWrite, ha]

theorem step_write_status (ha : locate a = .status) : step s = .next { s with pending := rest } := by
  simp only [step_write h, hostWrite, ha]

theorem step_write_blen (ha : locate a = .blen) : step s = .next (hostSetBlen v { s with pending := rest }) := by
  simp only [step_write h, hostWrite, ha]

theorem step_write_buf {k : Nat} (ha : locate a = .buf k) :
    step s = .next ({ s with pending := rest }.writeByte k (v.setWidth 8)) := by
  simp only [step_write h, hostWrite, ha]

theorem step_write_unmapped (ha : locate a = .unmapped) : step s = .next { s with pending := rest } := by
  simp only [step_write h, hostWrite, ha]

theorem step_write_cmd (ha : locate a = .cmd) :
    step s = returnCode (runCommand v { s with pending := rest }) := by
  simp only [step_write h, hostWrite, ha]

/-- A decoded command that ends in `t` returns the code it leaves there (R29). -/
theorem step_write_cmd_ok (ha : locate a = .cmd) {i : Instr} (hi : decode (.command v) = .ok i) {t : State}
    (ht : exec i { s with pending := rest } = .next t) :
    step s = .next { t with replies := .code t.code :: t.replies } := by
  rw [step_write_cmd h ha, runCommand_ok _ hi, ht]
  rfl

/-- A value that decodes to nothing raises `IllegalCommand` (R86). -/
theorem step_write_cmd_error (ha : locate a = .cmd) {e : Reject} (he : decode (.command v) = .error e) :
    step s = .next { s with pending := rest, code := 3#3, replies := .code 3#3 :: s.replies } := by
  rw [step_write_cmd h ha, runCommand_error _ he]
  rfl

/-- A write to the buffer's window stores `v[7:0]` at its offset; no other byte and no other field moves. -/
theorem step_write_buf_bytes {k : Nat} (ha : locate a = .buf k) :
    ∃ t, step s = .next t ∧ t = { s with pending := rest, buf := t.buf } ∧ t.readByte k = BitVec.ofNat 8 v.toNat ∧
      ∀ j, j ≠ k → t.readByte j = s.readByte j := by
  refine ⟨_, step_write_buf h ha, rfl, ?_, fun j hj => ?_⟩
  · rw [State.readByte_writeByte, if_pos rfl, BitVec.ofNat_toNat]
  · rw [State.readByte_writeByte, if_neg hj]
    rfl

end Write

/-- Settles O4: each address by its location in the map, the read's value and the write's effect by that location. -/
theorem hostAddressMap : Obligations.HostAddressMap := by
  unfold Obligations.HostAddressMap
  constructor
  · intro s a rest h
    have hreg (r : Reg) (ha : a.toNat = regIndex r) : hostRead a s = s.readReg r := hostRead_reg s (locate_reg a r ha)
    refine ⟨hostRead a s, step_read s h, hreg .pkg, hreg .mtype, hreg .mid, hreg .fwd, hreg .body, hreg .data,
      hreg .val, hreg .res, fun ha => ?_, fun ha => ?_, fun ha => hostRead_cmd s (locate_cmd a ha),
      fun ha => hostRead_unmapped s (locate_unmapped a (.inl ha)), fun k hk ha => ?_,
      fun ha => hostRead_unmapped s (locate_unmapped a (.inr ha))⟩
    · rw [hostRead_status s (locate_status a ha), BitVec.toNat_setWidth_of_le (by decide)]
    · rw [hostRead_blen s (locate_blen a ha), BitVec.toNat_setWidth_of_le (by decide)]
    · rw [hostRead_buf s (locate_buf a k hk ha), BitVec.toNat_setWidth_of_le (by decide)]
  · intro s a v rest h
    have hreg (r : Reg) (ha : a.toNat = regIndex r) : step s = .next ({ s with pending := rest }.setReg r v) :=
      step_write_reg h (locate_reg a r ha)
    refine ⟨hreg .pkg, hreg .mtype, hreg .mid, hreg .fwd, hreg .body, hreg .data, hreg .val, hreg .res,
      fun ha => step_write_status h (locate_status a ha), fun ha => ?_,
      fun ha _ hi _ ht => step_write_cmd_ok h (locate_cmd a ha) hi ht,
      fun ha _ he => step_write_cmd_error h (locate_cmd a ha) he,
      fun ha => step_write_unmapped h (locate_unmapped a (.inl ha)),
      fun k hk ha => step_write_buf_bytes h (locate_buf a k hk ha),
      fun ha => step_write_unmapped h (locate_unmapped a (.inr ha))⟩
    rw [step_write_blen h (locate_blen a ha), hostSetBlen_eq]

/-! ### PARSE and BUILD straight after reset -/

/-- Every byte of a field that holds 0 is 0. -/
theorem HoldsField.readByte_zero {s : State} {o n : Nat} (h : HoldsField s o n 0#64) (k : Nat) (hk : k < n) :
    s.readByte (o + k) = 0#8 := by
  apply BitVec.eq_of_toNat_eq
  rw [h.2 k hk]
  simp

theorem readReg_reset (b : Memory) (r : Reg) : { State.reset with buf := b }.readReg r = 0#64 := by cases r <;> rfl

theorem fieldsFit_reset (b : Memory) : FieldsFit { State.reset with buf := b } := by simp [FieldsFit, State.reset]

/-- With all registers 0 the control word is all zero: one byte each for `msgType` and `msgId`, none for the others. -/
theorem controlToBuild_reset (b : Memory) :
    controlToBuild { State.reset with buf := b } = ⟨0#4, 1, 1, 0, 0, 0⟩ := rfl

/-- A BUILD straight after reset makes the four bytes `00 00 00 00`, whatever stood in the buffer. -/
theorem readByte_built_reset (b : Memory) (k : Nat) (hk : k < 4) :
    (built { State.reset with buf := b }).readByte k = 0#8 := by
  rw [readByte_built, controlToBuild_reset]
  have hzero (r : Reg) (n : Nat) :
      ((writeControl ⟨0#4, 1, 1, 0, 0, 0⟩ { State.reset with buf := b }).readReg r).toNat < 2 ^ n := by
    simp [writeControl, readReg_reset]
  obtain ⟨hmtype, hmid, -⟩ := writeFields_holds ⟨0#4, 1, 1, 0, 0, 0⟩ _ (hzero .mtype _) (hzero .mid _)
    (hzero .fwd _) (hzero .body _) (hzero .data _)
  match k, hk with
  | 0, _ => rw [readByte_writeFields_outside _ _ _ (.inl (by decide)), readByte_writeControl]; rfl
  | 1, _ => rw [readByte_writeFields_outside _ _ _ (.inl (by decide)), readByte_writeControl]; rfl
  | 2, _ => exact hmtype.readByte_zero 0 Nat.one_pos
  | 3, _ => exact hmid.readByte_zero 0 Nat.one_pos

/-- Settles O1: `BLEN` 0 is too short for any header, and zero registers fit and build four zero bytes. -/
theorem resetStateAsSpecified : Obligations.ResetStateAsSpecified := by
  unfold Obligations.ResetStateAsSpecified
  refine ⟨readReg_reset [], rfl, rfl, fun b => ⟨execParse_short _ (.inl Nat.two_pos), ?_⟩⟩
  exact ⟨_, execBuild_fits _ (fieldsFit_reset b), rfl, rfl, readByte_built_reset b⟩

/-- Settles O8: `exec` always answers a next state, so the step is that state with its code returned. -/
theorem stepRunsDecodedCommand : Obligations.StepRunsDecodedCommand := by
  unfold Obligations.StepRunsDecodedCommand
  have hcmd : locate 0x00A#9 = .cmd := rfl
  refine ⟨fun s v rest i h hi => ?_, fun s v rest e h he => step_write_cmd_error h hcmd he, fun s rest h => ?_⟩
  · obtain ⟨t, ht⟩ := exec_next i { s with pending := rest }
    rw [step_write_cmd_ok h hcmd hi ht, ht]
  · rw [step_read s h, hostRead_cmd s hcmd]

end Sys2Proof.Machine

/-! # Reads of another width (`20_memory.md` R54): statement O32 -/

namespace Sys2Proof.Machine

/-- Byte `off + k` of a written range is byte `k` of the value. -/
theorem readByte_memWrite_toNat (s : State) (off n k : Nat) (v : Word) (hk : k < n) :
    ((memWrite s off n v).readByte (off + k)).toNat = v.toNat / 2 ^ (8 * k) % 256 := by
  rw [readByte_memWrite, if_pos (by omega), byteOf_toNat, Nat.add_sub_cancel_left]

/-- A read inside a written range returns that part of the value: its bytes are those of the value shifted down. -/
theorem memRead_memWrite_toNat (s : State) (off n j m : Nat) (v : Word) (hm : m ≤ 8) (hjm : j + m ≤ n) :
    (memRead (memWrite s off n v) (off + j) m).toNat = v.toNat / 2 ^ (8 * j) % 2 ^ (8 * m) := by
  have hbytes (k : Nat) (hk : k < m) : ((memWrite s off n v).readByte (off + j + k)).toNat
      = v.toNat / 2 ^ (8 * j) / 2 ^ (8 * k) % 256 := by
    rw [Nat.add_assoc, readByte_memWrite_toNat s off n (j + k) v (by omega), Nat.div_div_eq_div_mul, ← Nat.pow_add,
      Nat.mul_add]
  rw [memRead_toNat _ _ _ hm, leSum_of_bytes _ _ _ _ hbytes]

/-- The host's window at `0x100` shows byte `k` of the buffer (R33). -/
theorem hostRead_window_toNat (s : State) (k : Nat) (hk : k < Config.BUFCAP) :
    (hostRead (BitVec.ofNat 9 (0x100 + k)) s).toNat = (s.readByte k).toNat := by
  have hcap : Config.BUFCAP = 32 := rfl
  have haddr : (BitVec.ofNat 9 (0x100 + k)).toNat = 0x100 + k := by
    rw [BitVec.toNat_ofNat, Nat.mod_eq_of_lt (by omega)]
  rw [hostRead_buf s (locate_buf _ k hk haddr), BitVec.toNat_setWidth_of_le (by decide)]

/-- Settles O32: both reads see the bytes the write left, `MemRead` as their sum and the host through its window. -/
theorem mixedWidthReadsSeeSameBytes : Obligations.MixedWidthReadsSeeSameBytes := by
  unfold Obligations.MixedWidthReadsSeeSameBytes
  intro s off n j m v hn hoff hjm
  refine ⟨memRead_memWrite_toNat s off n j m v (by omega) hjm, fun hj => ?_⟩
  rw [hostRead_window_toNat _ _ (by omega), readByte_memWrite_toNat s off n j v hj]

end Sys2Proof.Machine

/-! # The encodings (`30_encoding.md`): statements O10, O41, O25 -/

namespace Sys2Proof.Machine

/-! ### The command word's fields by arithmetic on the value (R83) -/

section Fields

variable (v : Word)

theorem op_setWidth_toNat : (Cmd.op (v.setWidth 16)).toNat = opOf v := by
  rw [Cmd.op_toNat, BitVec.toNat_setWidth, opOf]
  omega

theorem z_setWidth_toNat : (Cmd.z (v.setWidth 16)).toNat = zOf v := by
  rw [Cmd.z_toNat, BitVec.toNat_setWidth, zOf]
  omega

theorem w_setWidth_toNat : (Cmd.w (v.setWidth 16)).toNat = wOf v := by
  rw [Cmd.w_toNat, BitVec.toNat_setWidth, wOf]
  omega

theorem off_setWidth_toNat : (Cmd.off (v.setWidth 16)).toNat = offOf v := by
  rw [Cmd.off_toNat, BitVec.toNat_setWidth, offOf]
  omega

theorem decode_of_upperBits (h : 2 ^ 16 ≤ v.toNat) : decode (.command v) = .error .upperBits := by
  have hv := v.isLt
  have hupper : v.extractLsb' 16 48 ≠ 0#48 := fun h0 => by
    have := congrArg BitVec.toNat h0
    rw [BitVec.extractLsb'_toNat, Nat.shiftRight_eq_div_pow, BitVec.toNat_ofNat] at this
    omega
  rw [decode, if_pos (bne_iff_ne.mpr hupper)]

theorem decode_of_lt (h : v.toNat < 2 ^ 16) : decode (.command v) = decodeWord (v.setWidth 16) := by
  have hv : (v.setWidth 16).setWidth 64 = v := by
    apply BitVec.eq_of_toNat_eq
    simp only [BitVec.toNat_setWidth]
    omega
  rw [← decode_widened, hv]

end Fields

/-! ### Which values select one of the seven commands (R86) -/

/-- The decoder selects none of the seven commands: it rejects, or reads the reserved `op` 7. -/
def SelectsNone (r : Except Reject Instr) : Prop := (∃ e, r = .error e) ∨ ∃ x, r = .ok (.reservedOp7 x)

/-- The decoder selects one of the seven commands, its immediates legal. -/
def SelectsSeven (r : Except Reject Instr) : Prop := ∃ i, r = .ok i ∧ isSeven i = true ∧ i.wellFormed = true

/-- `bad` decides whether the decoder selects one of the seven commands. -/
def DecidedBy (bad : Prop) (r : Except Reject Instr) : Prop := (bad → SelectsNone r) ∧ (¬ bad → SelectsSeven r)

theorem DecidedBy.of_error {bad : Prop} (h : bad) (e : Reject) : DecidedBy bad (.error e) :=
  ⟨fun _ => .inl ⟨e, rfl⟩, fun hn => absurd h hn⟩

theorem DecidedBy.of_ok {bad : Prop} (h : ¬ bad) {i : Instr} (hi : isSeven i = true) (hwf : i.wellFormed = true) :
    DecidedBy bad (.ok i) :=
  ⟨fun hb => absurd hb h, fun _ => ⟨i, rfl, hi, hwf⟩⟩

section Helpers

variable (c : BitVec 16)

theorem decodeBare_decided {i : Instr} (hi : isSeven i = true) (hwf : i.wellFormed = true) :
    DecidedBy ((Cmd.z c).toNat ≠ 0 ∨ (Cmd.w c).toNat ≠ 0 ∨ (Cmd.off c).toNat ≠ 0) (decodeBare c i) := by
  rw [decodeBare]
  split
  next h => exact .of_error (by simpa [← BitVec.toNat_inj, or_assoc] using h) _
  next h => exact .of_ok (by simpa [← BitVec.toNat_inj, and_assoc] using h) hi hwf

theorem decodeWidth_decided :
    DecidedBy ((Cmd.off c).toNat ≠ 0 ∨ (Cmd.w c).toNat = 0 ∨ 8 < (Cmd.w c).toNat) (decodeWidth c) := by
  have hoff : Cmd.off c != 0#8 ↔ (Cmd.off c).toNat ≠ 0 := by simp [← BitVec.toNat_inj]
  simp only [decodeWidth, hoff, Nat.lt_one_iff]
  split
  next h => exact .of_error (.inl h) _
  next h =>
    split
    next hw => exact .of_error (.inr hw) _
    next hw =>
      refine .of_ok (not_or.mpr ⟨h, hw⟩) rfl ?_
      simp only [Instr.wellFormed, Bool.and_eq_true, decide_eq_true_eq]
      omega

theorem decodeField_decided {i : Instr} (hi : isSeven i = true) (hwf : (Cmd.w c).toNat ≤ 8 → i.wellFormed = true) :
    DecidedBy ((Cmd.z c).toNat ≠ 0 ∨ 8 < (Cmd.w c).toNat) (decodeField c i) := by
  have hz : Cmd.z c ↔ (Cmd.z c).toNat ≠ 0 := by simp
  simp only [decodeField, hz]
  split
  next h => exact .of_error (.inl h) _
  next h =>
    split
    next hw => exact .of_error (.inr hw) _
    next hw => exact .of_ok (not_or.mpr ⟨h, hw⟩) hi (hwf (Nat.not_lt.mp hw))

end Helpers

/-- R86: the five conditions, and nothing else, keep a value from selecting one of the seven commands. -/
theorem decode_command_decided (v : Word) : DecidedBy (IllegalValue v) (decode (.command v)) := by
  by_cases hv : 2 ^ 16 ≤ v.toNat
  · rw [decode_of_upperBits v hv]
    exact .of_error (.inl hv) _
  · have hbare := @decodeBare_decided (v.setWidth 16)
    have hwidth := decodeWidth_decided (v.setWidth 16)
    have hfield := @decodeField_decided (v.setWidth 16)
    have hop : opOf v < 8 := Nat.mod_lt _ (by decide)
    rw [decode_of_lt v (by omega)]
    simp only [z_setWidth_toNat, w_setWidth_toNat, off_setWidth_toNat] at hbare hwidth hfield
    simp only [decodeWord, op_setWidth_toNat, IllegalValue, mbzViolated, hv, false_or]
    generalize opOf v = op at hop
    match op, hop with
    | 0, _ => simpa using hwidth
    | 1, _ => simpa using hbare (i := .zzenc) rfl rfl
    | 2, _ => simpa using hbare (i := .zzdec) rfl rfl
    | 3, _ => simpa using hfield (i := .fenc _ _) rfl (by simp [Instr.wellFormed, w_setWidth_toNat])
    | 4, _ => simpa using hfield (i := .fdec _ _) rfl (by simp [Instr.wellFormed, w_setWidth_toNat])
    | 5, _ => simpa using hbare (i := .build) rfl rfl
    | 6, _ => simpa using hbare (i := .parse) rfl rfl
    | 7, _ => exact ⟨fun _ => .inr ⟨_, rfl⟩, fun h => absurd (.inl rfl) h⟩

/-- A write to `CMD` that selects none of the seven commands raises `IllegalCommand` (R86, R183). -/
theorem runCommand_of_selectsNone {v : Word} (s : State) (h : SelectsNone (decode (.command v))) :
    runCommand v s = raise .illegalCommand s := by
  obtain ⟨e, he⟩ | ⟨x, hx⟩ := h
  · exact runCommand_error s he
  · rw [runCommand_ok s hx]
    rfl

/-- Settles O10: the decoder's outcome is decided by R86's conditions, and each outcome but a command of the seven
raises. -/
theorem illegalValuesRaise : Obligations.IllegalValuesRaise := by
  unfold Obligations.IllegalValuesRaise
  intro s v rest h
  obtain ⟨hillegal, hlegal⟩ := decode_command_decided v
  refine ⟨fun hv => ?_, hlegal⟩
  rw [step_write_cmd h rfl, runCommand_of_selectsNone _ (hillegal hv)]
  rfl

/-! ### The control word (R77, R78) -/

/-- Extraction from the two control bytes undoes their composition. -/
theorem ControlInRange.controlOfBytes_controlBytes {c : ControlWord} (h : ControlInRange c) :
    controlOfBytes (controlByte0 c) (controlByte1 c) = c := by
  rw [controlOfBytes_eq, h.byte0, h.byte1]
  obtain ⟨hmtype, hmtype', hmid, hmid', hfwd, hbody, hdata⟩ := h
  have hpkg : (c.pkgType.toNat * 16 + (c.msgTypeBytes - 1) * 4 + c.fwdBytes) / 16 = c.pkgType.toNat := by omega
  apply ControlWord.ext_parts
  case h1 => simp only [hpkg, BitVec.ofNat_toNat, BitVec.setWidth_eq]
  all_goals dsimp only; omega

/-- Settles O41: both sums and the extraction hold of every control word in range. -/
theorem controlWordRoundTrip : Obligations.ControlWordRoundTrip := by
  unfold Obligations.ControlWordRoundTrip
  intro c hmtype hmtype' hmid hmid' hfwd hbody hdata
  have h : ControlInRange c := ⟨hmtype, hmtype', hmid, hmid', hfwd, hbody, hdata⟩
  exact ⟨h.byte0, h.byte1, h.controlOfBytes_controlBytes⟩

/-! ### The pseudo-commands (R89) -/

/-- WIDTH with a legal cap leaves the minimal width of `VAL` in `RES`, with code 0. -/
theorem calcWidth_isMinimal (z : Bool) (w : BitVec 4) (s : State) (h : legalCap w = true) :
    ∃ r, IsMinimalWidth s.val.toNat w.toNat z r ∧
      calcWidth z w s = .next { s with res := BitVec.ofNat 64 r, code := 0#3 } := by
  obtain ⟨hcap, -⟩ : 1 ≤ w.toNat ∧ w.toNat ≤ Config.MAXW := by simpa [legalCap] using h
  exact ⟨_, minbytes_isMinimal s.val w.toNat z hcap, calcWidth_legal z w s h⟩

/-- Settles O25: a pseudo-command and its WIDTH run the same calculation, whose cap is legal. -/
theorem pseudoCommandsAreWidth : Obligations.PseudoCommandsAreWidth := by
  unfold Obligations.PseudoCommandsAreWidth
  refine ⟨rfl, rfl, rfl, rfl, rfl, fun s => ?_⟩
  obtain ⟨rId, hId, execId⟩ := calcWidth_isMinimal false 8#4 s rfl
  obtain ⟨rType, hType, execType⟩ := calcWidth_isMinimal false 4#4 s rfl
  obtain ⟨rLen, hLen, execLen⟩ := calcWidth_isMinimal true 3#4 s rfl
  obtain ⟨rData, hData, execData⟩ := calcWidth_isMinimal true 7#4 s rfl
  exact ⟨rId, rType, rLen, rLen, rData, hId, execId, rfl, hType, execType, rfl, hLen, execLen, rfl, hLen, execLen, rfl,
    hData, execData, rfl⟩

end Sys2Proof.Machine

/-! # The Width Calculator (`40_width.md`): statements O23, O24 -/

namespace Sys2Proof.Machine

/-! ### WIDTH (R101) -/

theorem legalCap_iff (w : BitVec 4) : legalCap w = true ↔ 1 ≤ w.toNat ∧ w.toNat ≤ 8 := by
  rw [legalCap, Bool.and_eq_true, decide_eq_true_eq, decide_eq_true_eq, Config.MAXW]

/-- WIDTH with an illegal cap raises `IllegalCommand` and leaves `RES` as it was. -/
theorem calcWidth_illegal (z : Bool) (w : BitVec 4) (s : State) (h : ¬ legalCap w = true) :
    calcWidth z w s = .next { s with code := 3#3 } := by
  rw [calcWidth, if_neg h]
  rfl

/-- Settles O23: a legal cap leaves the minimal width, and the caps outside 1 to 8 are the illegal ones. -/
theorem widthGivesMinimalWidth : Obligations.WidthGivesMinimalWidth := by
  unfold Obligations.WidthGivesMinimalWidth
  intro s z w
  refine ⟨fun h => calcWidth_isMinimal z w s ((legalCap_iff w).mpr h), fun h => calcWidth_illegal z w s ?_⟩
  rw [legalCap_iff]
  omega

/-! ### The laws of `minbytes` (R104) -/

section Laws

variable {v v' : Word} {cap : Nat} {z : Bool}

/-- The thresholds of `minbytes`, from which its laws follow: the result is at most `w`, for a `w` below the cap, just
when the value fits `w` bytes, a result of 0 being asked of the zero flag as well. -/
theorem minbytes_le_iff {w : Nat} (hw : w < cap) :
    minbytes v cap z ≤ w ↔ v.toNat < 2 ^ (8 * w) ∧ (w = 0 → z = true) := by
  have h := minbytes_isMinimal v cap z (by omega)
  unfold IsMinimalWidth at h
  split at h
  next hzero => rw [h]; simp [hzero]
  next hzero =>
    obtain ⟨hpos, -, hholds, hbelow⟩ := h
    constructor
    · intro hle
      have hpow : 2 ^ (8 * minbytes v cap z) ≤ 2 ^ (8 * w) := Nat.pow_le_pow_right Nat.two_pos (by omega)
      exact ⟨(hholds (by omega)).trans_le hpow, by omega⟩
    · rintro ⟨hv, hz⟩
      by_contra hlt
      rcases Nat.eq_zero_or_pos w with rfl | hwpos
      · exact hzero ⟨hz rfl, Nat.lt_one_iff.mp hv⟩
      · have := hbelow w hwpos (by omega)
        omega

/-- Law 1: the result is 0 only for the value 0, where the zero flag allows it. -/
theorem minbytes_eq_zero (hc : 1 ≤ cap) (h : minbytes v cap z = 0) : z = true ∧ v = 0#64 := by
  obtain ⟨hv, hz⟩ := (minbytes_le_iff hc).mp h.le
  exact ⟨hz rfl, BitVec.eq_of_toNat_eq (Nat.lt_one_iff.mp hv)⟩

/-- Law 3: a value does not fit one byte less than its minimal width. -/
theorem minbytes_minimal (hc : 1 ≤ cap) (h : 2 ≤ minbytes v cap z) : 2 ^ (8 * (minbytes v cap z - 1)) ≤ v.toNat := by
  have hle := minbytes_le v cap z hc
  have hiff := minbytes_le_iff (v := v) (z := z) (show minbytes v cap z - 1 < cap by omega)
  by_contra hlt
  have := hiff.mpr ⟨Nat.not_le.mp hlt, by omega⟩
  omega

/-- Law 3, below 2: with the zero flag, a result of 1 says that the value is not 0. -/
theorem one_le_of_minbytes_eq_one (hc : 1 ≤ cap) (h : minbytes v cap true = 1) : 1 ≤ v.toNat := by
  by_contra hlt
  have := (minbytes_le_iff hc).mpr ⟨Nat.not_le.mp hlt, fun _ => rfl⟩
  omega

/-- Law 4: what holds the greater value holds the lesser. -/
theorem minbytes_mono (hc : 1 ≤ cap) (h : v.toNat ≤ v'.toNat) : minbytes v cap z ≤ minbytes v' cap z := by
  have hle := minbytes_le v cap z hc
  by_cases hcap : minbytes v' cap z < cap
  · obtain ⟨hv', hz⟩ := (minbytes_le_iff hcap).mp (Nat.le_refl _)
    exact (minbytes_le_iff hcap).mpr ⟨h.trans_lt hv', hz⟩
  · omega

/-- Law 5, the table: where the value fits the cap, the result is `r` just between the thresholds of `r - 1` and `r`. -/
theorem minbytes_eq_iff {r : Nat} (hfit : v.toNat < 2 ^ (8 * cap)) (hr : 1 ≤ r) (hrc : r ≤ cap) :
    minbytes v cap false = r ↔ (r = 1 ∨ 2 ^ (8 * (r - 1)) ≤ v.toNat) ∧ v.toNat < 2 ^ (8 * r) := by
  have hc : 1 ≤ cap := hr.trans hrc
  constructor
  · rintro rfl
    refine ⟨?_, minbytes_holds v cap false hc hfit⟩
    rcases Nat.eq_or_lt_of_le hr with h1 | h2
    · exact .inl h1.symm
    · exact .inr (minbytes_minimal hc h2)
  · rintro ⟨hlow, hhigh⟩
    have hpos := minbytes_pos v cap hc
    have hle := minbytes_le v cap false hc
    have hupper : minbytes v cap false ≤ r := by
      rcases Nat.eq_or_lt_of_le hrc with rfl | hlt
      · exact hle
      · exact (minbytes_le_iff hlt).mpr ⟨hhigh, by omega⟩
    have hlower := minbytes_le_iff (v := v) (z := false) (show r - 1 < cap by omega)
    omega

/-- Law 5, the cut: from the last threshold below the cap on, the result is the cap. -/
theorem minbytes_eq_cap (hc : 1 ≤ cap) (h : 2 ^ (8 * (cap - 1)) ≤ v.toNat) : minbytes v cap false = cap := by
  have hle := minbytes_le v cap false hc
  have hiff := minbytes_le_iff (v := v) (z := false) (show cap - 1 < cap by omega)
  omega

/-- Law 5, below the cut: a value that fits both caps has one minimal width under both. -/
theorem minbytes_eq_of_fits {cap' : Nat} (hc : 1 ≤ cap) (hcc : cap ≤ cap') (h : v.toNat < 2 ^ (8 * cap)) :
    minbytes v cap false = minbytes v cap' false := by
  have hpos := minbytes_pos v cap hc
  have hle := minbytes_le v cap false hc
  have h' : v.toNat < 2 ^ (8 * cap') := h.trans_le (Nat.pow_le_pow_right Nat.two_pos (by omega))
  exact ((minbytes_eq_iff h' hpos (hle.trans hcc)).mpr ((minbytes_eq_iff h hpos hle).mp rfl)).symm

end Laws

/-- Settles O24: the five laws in R104's order, each from the thresholds; every word fits eight bytes. -/
theorem minbytesLaws : Obligations.MinbytesLaws := by
  unfold Obligations.MinbytesLaws
  intro v v' cap z hc hc8
  refine ⟨⟨minbytes_le v cap z hc, minbytes_eq_zero hc⟩, minbytes_holds v cap z hc, ⟨minbytes_minimal hc, ?_⟩,
    minbytes_mono hc, fun r hr hr8 => minbytes_eq_iff v.isLt hr hr8, minbytes_eq_cap hc, fun hv => ?_⟩
  · rintro h rfl
    exact one_le_of_minbytes_eq_one hc h
  · have hpow : 2 ^ (8 * (cap - 1)) ≤ 2 ^ (8 * cap) := Nat.pow_le_pow_right Nat.two_pos (by omega)
    exact minbytes_eq_of_fits hc hc8 (hv.trans_le hpow)

end Sys2Proof.Machine

/-! # The ZigZag Transform (`41_zigzag.md`): statements O26, O27, O28 -/

namespace Sys2Proof.Machine

section Zigzag

variable (n : Word)

/-! ### The two fills (R111, R112) -/

/-- R111: the arithmetic shift by 63 fills the word with its sign bit. -/
theorem sshiftRight_63 : n.sshiftRight 63 = if n.toNat < 2 ^ 63 then 0#64 else BitVec.allOnes 64 := by
  have hn := n.isLt
  have hmsb := BitVec.msb_eq_decide n
  apply BitVec.eq_of_toNat_eq
  split
  next h =>
    rw [BitVec.toNat_sshiftRight_of_msb_false (by simpa [hmsb] using h), Nat.shiftRight_eq_div_pow, Nat.div_eq_of_lt h]
    rfl
  next h =>
    rw [BitVec.toNat_sshiftRight_of_msb_true (by simpa [hmsb] using h), Nat.shiftRight_eq_div_pow,
      Nat.div_eq_of_lt (by omega)]
    rfl

/-- R112: the wrapping subtraction fills the word with its low bit. -/
theorem zero_sub_lowBit : 0#64 - (n &&& 1#64) = if n.toNat % 2 = 0 then 0#64 else BitVec.allOnes 64 := by
  have hbit : n &&& 1#64 = BitVec.ofNat 64 (n.toNat % 2) := by
    apply BitVec.eq_of_toNat_eq
    rw [BitVec.toNat_and, BitVec.toNat_ofNat, BitVec.toNat_ofNat, Nat.and_one_is_mod]
    omega
  rw [hbit]
  rcases Nat.mod_two_eq_zero_or_one n.toNat with h | h <;> rw [h] <;> rfl

/-! ### The maps with the fill written out, and their values -/

theorem zzenc_eq : zzenc n = (n <<< 1) ^^^ (if n.toNat < 2 ^ 63 then 0#64 else BitVec.allOnes 64) := by
  rw [zzenc, sshiftRight_63]

theorem zzdec_eq : zzdec n = (n >>> 1) ^^^ (if n.toNat % 2 = 0 then 0#64 else BitVec.allOnes 64) := by
  rw [zzdec, zero_sub_lowBit]

theorem toNat_zzenc :
    (zzenc n).toNat = if n.toNat < 2 ^ 63 then 2 * n.toNat else 2 * (2 ^ 64 - n.toNat) - 1 := by
  have hn := n.isLt
  rw [zzenc_eq]
  split
  · rw [BitVec.xor_zero, BitVec.toNat_shiftLeft, Nat.shiftLeft_eq]
    omega
  · rw [BitVec.xor_allOnes, BitVec.toNat_not, BitVec.toNat_shiftLeft, Nat.shiftLeft_eq]
    omega

theorem toNat_zzdec :
    (zzdec n).toNat = if n.toNat % 2 = 0 then n.toNat / 2 else 2 ^ 64 - (n.toNat + 1) / 2 := by
  have hn := n.isLt
  rw [zzdec_eq]
  split
  · rw [BitVec.xor_zero, BitVec.toNat_ushiftRight, Nat.shiftRight_eq_div_pow]
  · rw [BitVec.xor_allOnes, BitVec.toNat_not, BitVec.toNat_ushiftRight, Nat.shiftRight_eq_div_pow]
    omega

/-! ### The signed readings (R111, R112) -/

theorem toNat_zzenc_signed :
    ((zzenc n).toNat : Int) = if 0 ≤ n.toInt then 2 * n.toInt else -2 * n.toInt - 1 := by
  have hn := n.isLt
  rw [toNat_zzenc, BitVec.toInt_eq_toNat_cond]
  by_cases h : n.toNat < 2 ^ 63
  · have h' : 2 * n.toNat < 2 ^ 64 := by omega
    simp only [if_pos h, if_pos h']
    omega
  · have h' : ¬ 2 * n.toNat < 2 ^ 64 := by omega
    simp only [if_neg h, if_neg h']
    omega

theorem toInt_zzdec :
    (zzdec n).toInt = if n.toNat % 2 = 0 then ((n.toNat / 2 : Nat) : Int) else -((n.toNat + 1) / 2 : Nat) := by
  have hn := n.isLt
  rw [BitVec.toInt_eq_toNat_cond, toNat_zzdec]
  by_cases h : n.toNat % 2 = 0
  · rw [if_pos h, if_pos h, if_pos (by omega)]
  · rw [if_neg h, if_neg h, if_neg (by omega)]
    omega

/-! ### The maps are inverse to each other (R113) -/

/-- Encoding gives an even word for a non-negative reading and an odd one for a negative reading, so that decoding
takes the branch that undoes it. -/
theorem zzdec_zzenc : zzdec (zzenc n) = n := by
  have hn := n.isLt
  apply BitVec.eq_of_toNat_eq
  rw [toNat_zzdec, toNat_zzenc]
  by_cases h : n.toNat < 2 ^ 63
  · rw [if_pos h, if_pos (by omega)]
    omega
  · rw [if_neg h, if_neg (by omega)]
    omega

/-- A map of a finite set into itself that has a left inverse is inverted by it on both sides. -/
theorem zzenc_zzdec : zzenc (zzdec n) = n := by
  have hinv : Function.LeftInverse zzdec zzenc := zzdec_zzenc
  exact hinv.rightInverse_of_surjective (Finite.surjective_of_injective hinv.injective) n

end Zigzag

/-- Settles O26: the fill by the sign bit, then the signed reading's two cases. -/
theorem zzencFollowsSignedReading : Obligations.ZzencFollowsSignedReading := by
  unfold Obligations.ZzencFollowsSignedReading
  intro s
  have hsigned := toNat_zzenc_signed s.val
  exact ⟨zzenc s.val, rfl, zzenc_eq s.val, fun h => by rw [hsigned, if_pos h],
    fun h => by rw [hsigned, if_neg (Int.not_le.mpr h)]⟩

/-- Settles O27: the fill by the low bit, then the two parities. -/
theorem zzdecUndoesZigzag : Obligations.ZzdecUndoesZigzag := by
  unfold Obligations.ZzdecUndoesZigzag
  intro s
  have hsigned := toInt_zzdec s.val
  exact ⟨zzdec s.val, rfl, zzdec_eq s.val, fun h => by rw [hsigned, if_pos h],
    fun h => by rw [hsigned, if_neg (by omega)]⟩

/-- Settles O28: the two inverse laws, and R113's table by evaluation. -/
theorem zigzagIsBijection : Obligations.ZigzagIsBijection := by
  unfold Obligations.ZigzagIsBijection
  exact ⟨zzdec_zzenc, zzenc_zzdec, by decide⟩

end Sys2Proof.Machine

/-! # The Field Encoder and Decoder (`42_field.md`): statement O31 -/

namespace Sys2Proof.Machine

/-! ### FENC and FDEC with a legal width, in bounds (R120, R121) -/

theorem legalWidth_of_le {w : BitVec 4} (h : w.toNat ≤ 8) : legalWidth w = true := decide_eq_true h

theorem inBounds_of_le {off n : Nat} (h : off + n ≤ Config.BUFCAP) : inBounds off n = true := decide_eq_true h

section Field

variable (s : State) (off : BitVec 8) (w : BitVec 4) (hw : w.toNat ≤ 8) (hoff : off.toNat + w.toNat ≤ Config.BUFCAP)

include hw hoff

theorem exec_fenc_legal :
    exec (.fenc off w) s = .next ((memWrite s off.toNat w.toNat s.val).setCode 0#3) := by
  simp only [exec, execFenc, legalWidth_of_le hw, inBounds_of_le hoff, if_true]
  rfl

theorem exec_fdec_legal :
    exec (.fdec off w) s = .next ((s.setReg .res (memRead s off.toNat w.toNat)).setCode 0#3) := by
  simp only [exec, execFdec, legalWidth_of_le hw, inBounds_of_le hoff, if_true]
  rfl

end Field

/-! ### `MemRead` and `MemWrite` undo each other (R123) -/

/-- R123, first law: a value written reads back truncated to the width. -/
theorem memRead_memWrite_same_toNat (s : State) (off n : Nat) (v : Word) (hn : n ≤ 8) :
    (memRead (memWrite s off n v) off n).toNat = v.toNat % 2 ^ (8 * n) := by
  simpa using memRead_memWrite_toNat s off n 0 n v hn (by omega)

/-- To write the value a field already holds changes no byte. -/
theorem readByte_memWrite_of_holdsField {s : State} {off n : Nat} {v : Word} (h : HoldsField s off n v) (k : Nat) :
    (memWrite s off n v).readByte k = s.readByte k := by
  rw [readByte_memWrite]
  split
  next hk =>
    have hbyte := h.2 (k - off) (by omega)
    rw [Nat.add_sub_cancel' hk.1] at hbyte
    exact BitVec.eq_of_toNat_eq ((byteOf_toNat v (k - off)).trans hbyte.symm)
  next => rfl

/-- R123, converse: to write back what was read changes no byte, whatever the registers hold meanwhile. -/
theorem readByte_memWrite_memRead {s t : State} {off n : Nat} (hn : n ≤ 8) (hbuf : ∀ k, t.readByte k = s.readByte k)
    (k : Nat) : (memWrite t off n (memRead s off n)).readByte k = s.readByte k := by
  have hheld : HoldsField t off n (memRead s off n) := (memRead_holdsField s off n hn).congr fun _ _ => hbuf _
  rw [readByte_memWrite_of_holdsField hheld, hbuf]

/-- Settles O31: FDEC after FENC reads a value just written, and FENC after FDEC writes a value already held. -/
theorem fieldCommandsAreInverse : Obligations.FieldCommandsAreInverse := by
  unfold Obligations.FieldCommandsAreInverse
  intro s off w hw hoff
  constructor
  · refine ⟨_, _, exec_fenc_legal s off w hw hoff, exec_fdec_legal _ off w hw hoff, ?_⟩
    have hread : memRead ((memWrite s off.toNat w.toNat s.val).setCode 0#3) off.toNat w.toNat =
        memRead (memWrite s off.toNat w.toNat s.val) off.toNat w.toNat := memRead_congr _ _ _ _ fun _ _ => rfl
    rw [State.setCode_res, State.setReg_res_res, hread, memRead_memWrite_same_toNat _ _ _ _ hw]
  · refine ⟨_, _, exec_fdec_legal s off w hw hoff, exec_fenc_legal _ off w hw hoff, fun k => ?_⟩
    rw [State.readByte_setCode]
    refine readByte_memWrite_memRead hw (fun _ => ?_) k
    rfl

end Sys2Proof.Machine

/-! # The Header Builder (`43_build.md`): statements O34, O35, O33 -/

namespace Sys2Proof.Machine

/-! ### The range check (R141) -/

/-- One of R141's conditions holds just when the values do not fit. -/
theorem not_fieldsFit_iff (s : State) :
    ¬ FieldsFit s ↔ 16 ≤ s.pkg.toNat ∨ 2 ^ 32 ≤ s.mtype.toNat ∨ 2 ^ 24 ≤ s.fwd.toNat ∨ 2 ^ 24 ≤ s.body.toNat ∨
      2 ^ 56 ≤ s.data.toNat := by
  simp only [FieldsFit, not_and_or, Nat.not_lt]

/-- Settles O33: the five conditions are the negation of the values' fitting, which decides how BUILD ends. -/
theorem buildRejectsOutOfRange : Obligations.BuildRejectsOutOfRange := by
  unfold Obligations.BuildRejectsOutOfRange
  intro s
  exact ⟨fun h => execBuild_overflow s ((not_fieldsFit_iff s).mpr h), fun h => ⟨built s, execBuild_fits s h, rfl⟩⟩

/-! ### The header BUILD leaves, part by part (R142 to R145) -/

@[simp] theorem readReg_writeControl (c : ControlWord) (s : State) (r : Reg) :
    (writeControl c s).readReg r = s.readReg r := by
  rw [writeControl, State.readReg_writeByte, State.readReg_writeByte]

theorem readByte_built_zero (s : State) : (built s).readByte 0 = controlByte0 (controlToBuild s) := by
  rw [readByte_built, readByte_writeFields_outside _ _ _ (.inl Nat.two_pos), readByte_writeControl, if_pos rfl]

theorem readByte_built_one (s : State) : (built s).readByte 1 = controlByte1 (controlToBuild s) := by
  rw [readByte_built, readByte_writeFields_outside _ _ _ (.inl Nat.one_lt_two), readByte_writeControl,
    if_neg Nat.one_ne_zero, if_pos rfl]

/-- The bytes beyond the header keep their values. -/
theorem readByte_built_beyond (s : State) (k : Nat) (hk : headerLength (controlToBuild s) ≤ k) :
    (built s).readByte k = s.readByte k := by
  obtain ⟨hmin, -⟩ := (controlToBuild_inRange s).length
  rw [readByte_built, readByte_writeFields_outside _ _ _ (.inr hk), readByte_writeControl, if_neg (by omega),
    if_neg (by omega)]

/-- A header's length is small enough for `BLEN`. -/
theorem blen_built_toNat (s : State) : (built s).blen.toNat = headerLength (controlToBuild s) := by
  obtain ⟨-, hmax⟩ := (controlToBuild_inRange s).length
  exact Nat.mod_eq_of_lt (by omega)

/-- A packet type in range loses nothing in its four bits. -/
theorem FieldsFit.controlToBuild_pkgType_toNat {s : State} (h : FieldsFit s) :
    (controlToBuild s).pkgType.toNat = s.pkg.toNat := by
  obtain ⟨hpkg, -⟩ := h
  exact (BitVec.toNat_setWidth 4 s.pkg).trans (Nat.mod_eq_of_lt hpkg)

/-- No `minbytes` call saturates once the values fit: each field holds its value in its minimal width. -/
theorem FieldsFit.built_holds {s : State} (h : FieldsFit s) :
    HoldsField (built s) (msgTypeAt (controlToBuild s)) (controlToBuild s).msgTypeBytes s.mtype ∧
    HoldsField (built s) (msgIdAt (controlToBuild s)) (controlToBuild s).msgIdBytes s.mid ∧
    HoldsField (built s) (fwdAt (controlToBuild s)) (controlToBuild s).fwdBytes s.fwd ∧
    HoldsField (built s) (bodyAt (controlToBuild s)) (controlToBuild s).bodyBytes s.body ∧
    HoldsField (built s) (dataAt (controlToBuild s)) (controlToBuild s).dataBytes s.data := by
  obtain ⟨-, hmtype, hfwd, hbody, hdata⟩ := h
  have hfields := writeFields_holds (controlToBuild s) (writeControl (controlToBuild s) s)
  simp only [readReg_writeControl] at hfields
  obtain ⟨fmtype, fmid, ffwd, fbody, fdata⟩ := hfields
    (minbytes_holds s.mtype 4 false (by decide) hmtype) (minbytes_holds s.mid 8 false (by decide) s.mid.isLt)
    (minbytes_holds s.fwd 3 true (by decide) hfwd) (minbytes_holds s.body 3 true (by decide) hbody)
    (minbytes_holds s.data 7 true (by decide) hdata)
  exact ⟨fmtype.congr fun _ _ => readByte_built s _, fmid.congr fun _ _ => readByte_built s _,
    ffwd.congr fun _ _ => readByte_built s _, fbody.congr fun _ _ => readByte_built s _,
    fdata.congr fun _ _ => readByte_built s _⟩

/-- Settles O34: the control word's two bytes as sums, the five fields held, the bytes beyond kept. -/
theorem buildWritesHeader : Obligations.BuildWritesHeader := by
  unfold Obligations.BuildWritesHeader
  refine fun s => ⟨fun h => ?_, execBuild_overflow s⟩
  have hrange := controlToBuild_inRange s
  obtain ⟨hmin, hmax⟩ := hrange.length
  obtain ⟨fmtype, fmid, ffwd, fbody, fdata⟩ := h.built_holds
  refine ⟨built s, _, _, _, _, _, headerLength (controlToBuild s), minbytes_isMinimal s.mtype 4 false (by decide),
    minbytes_isMinimal s.mid 8 false (by decide), minbytes_isMinimal s.fwd 3 true (by decide),
    minbytes_isMinimal s.body 3 true (by decide), minbytes_isMinimal s.data 7 true (by decide), rfl, hmin, hmax,
    execBuild_fits s h, rfl, ?_, ?_, fmtype, fmid, ffwd, fbody, fdata, readByte_built_beyond s⟩
  · rw [readByte_built_zero, hrange.byte0, h.controlToBuild_pkgType_toNat]
    rfl
  · rw [readByte_built_one, hrange.byte1]
    rfl

/-! ### What BUILD depends on (R146) -/

section SixRegisters

variable {s s' : State} (hr : ∀ r, r ≠ .val → r ≠ .res → s.readReg r = s'.readReg r)
include hr

theorem FieldsFit.congr (h : FieldsFit s) : FieldsFit s' := by
  have hpkg : s.pkg = s'.pkg := hr .pkg (by decide) (by decide)
  have hmtype : s.mtype = s'.mtype := hr .mtype (by decide) (by decide)
  have hfwd : s.fwd = s'.fwd := hr .fwd (by decide) (by decide)
  have hbody : s.body = s'.body := hr .body (by decide) (by decide)
  have hdata : s.data = s'.data := hr .data (by decide) (by decide)
  simpa only [FieldsFit, hpkg, hmtype, hfwd, hbody, hdata] using h

theorem controlToBuild_congr : controlToBuild s = controlToBuild s' := by
  simp only [controlToBuild, hr .pkg (by decide) (by decide), hr .mtype (by decide) (by decide),
    hr .mid (by decide) (by decide), hr .fwd (by decide) (by decide), hr .body (by decide) (by decide),
    hr .data (by decide) (by decide)]

/-- The header's bytes are the control word's two, then the fields'. -/
theorem readByte_built_congr (k : Nat) (hk : k < headerLength (controlToBuild s)) :
    (built s).readByte k = (built s').readByte k := by
  have hc := controlToBuild_congr hr
  match k with
  | 0 => rw [readByte_built_zero, readByte_built_zero, hc]
  | 1 => rw [readByte_built_one, readByte_built_one, hc]
  | k + 2 =>
    rw [readByte_built, readByte_built, ← hc]
    refine readByte_writeFields_inside _ _ _ _ (Nat.le_add_left 2 k) hk fun r hval hres => ?_
    rw [readReg_writeControl, readReg_writeControl, hr r hval hres]

end SixRegisters

/-- Settles O35: values that fit in one state fit in the other and build the same header there, and else both ends
are `FieldOverflow`. -/
theorem buildDependsOnSixRegisters : Obligations.BuildDependsOnSixRegisters := by
  unfold Obligations.BuildDependsOnSixRegisters
  intro s s' hpkg hmtype hmid hfwd hbody hdata
  have hr (r : Reg) (hval : r ≠ .val) (hres : r ≠ .res) : s.readReg r = s'.readReg r := by
    cases r with
    | pkg => exact hpkg
    | mtype => exact hmtype
    | mid => exact hmid
    | fwd => exact hfwd
    | body => exact hbody
    | data => exact hdata
    | val => exact absurd rfl hval
    | res => exact absurd rfl hres
  by_cases h : FieldsFit s
  · refine ⟨built s, built s', execBuild_fits s h, execBuild_fits s' (h.congr hr), rfl, fun _ => ?_⟩
    rw [blen_built_toNat]
    refine ⟨?_, ?_, readByte_built_congr hr, readByte_built_beyond s⟩ <;> rw [built, built, controlToBuild_congr hr]
  · have h' : ¬ FieldsFit s' := fun hfit => h (hfit.congr fun r hval hres => (hr r hval hres).symm)
    refine ⟨_, _, execBuild_overflow s h, execBuild_overflow s' h', rfl, fun hcode => ?_⟩
    exact absurd (show 2#3 = 0#3 from hcode) (by decide)

end Sys2Proof.Machine

/-! # The Header Parser (`44_parse.md`): statements O36, O38, O40 -/

namespace Sys2Proof.Machine

/-! ### The control word PARSE reads (R162) -/

/-- The control word in the buffer, by arithmetic on its two bytes. -/
theorem controlInBuffer_eq (s : State) :
    controlInBuffer s =
      { pkgType := BitVec.ofNat 4 (wirePkg s), msgTypeBytes := wireMsgType s, msgIdBytes := wireMsgId s,
        fwdBytes := wireFwd s, bodyBytes := wireBody s, dataBytes := wireData s } :=
  controlOfBytes_eq _ _

theorem controlInBuffer_inRange (s : State) : ControlInRange (controlInBuffer s) := by
  have h1 := (s.readByte 1).isLt
  simp only [controlInBuffer_eq, ControlInRange, wireMsgType, wireMsgId, wireFwd, wireBody, wireData]
  omega

theorem controlInBuffer_congr {s s' : State} (h : ∀ k, k < 2 → s.readByte k = s'.readByte k) :
    controlInBuffer s = controlInBuffer s' := by
  rw [controlInBuffer, controlInBuffer, h 0 Nat.two_pos, h 1 Nat.one_lt_two]

theorem wireLength_congr {s s' : State} (h : ∀ k, k < 2 → s.readByte k = s'.readByte k) :
    wireLength s = wireLength s' := by
  rw [← headerLength_inBuffer, ← headerLength_inBuffer, controlInBuffer_congr h]

/-! ### What PARSE leaves, field by field (R164, R165) -/

/-- PARSE leaves in each register the value its field holds. -/
theorem parsed_holds (s : State) :
    HoldsField s (msgTypeAt (controlInBuffer s)) (controlInBuffer s).msgTypeBytes (parsed s).mtype ∧
    HoldsField s (msgIdAt (controlInBuffer s)) (controlInBuffer s).msgIdBytes (parsed s).mid ∧
    HoldsField s (fwdAt (controlInBuffer s)) (controlInBuffer s).fwdBytes (parsed s).fwd ∧
    HoldsField s (bodyAt (controlInBuffer s)) (controlInBuffer s).bodyBytes (parsed s).body ∧
    HoldsField s (dataAt (controlInBuffer s)) (controlInBuffer s).dataBytes (parsed s).data := by
  obtain ⟨-, hmtype, -, hmid, hfwd, hbody, hdata⟩ := controlInBuffer_inRange s
  exact ⟨memRead_holdsField _ _ _ (by omega), memRead_holdsField _ _ _ hmid, memRead_holdsField _ _ _ (by omega),
    memRead_holdsField _ _ _ (by omega), memRead_holdsField _ _ _ (by omega)⟩

theorem parsed_pkg (s : State) : (parsed s).pkg = BitVec.ofNat 64 (wirePkg s) := by
  have h0 := (s.readByte 0).isLt
  apply BitVec.eq_of_toNat_eq
  simp only [parsed, controlInBuffer_eq, wirePkg, BitVec.toNat_setWidth, BitVec.toNat_ofNat]
  omega

theorem parsed_res (s : State) : (parsed s).res = BitVec.ofNat 64 (wireLength s) := by
  rw [← headerLength_inBuffer]
  rfl

/-- Settles O38: `MemRead` gives the value each field's bytes hold, in the widths the two control bytes announce. -/
theorem parseReadsHeader : Obligations.ParseReadsHeader := by
  unfold Obligations.ParseReadsHeader
  refine fun s => ⟨fun _ hlen => ?_, execParse_short s⟩
  have hfields := parsed_holds s
  rw [controlInBuffer_eq] at hfields
  refine ⟨_, _, _, _, _, ?_, hfields⟩
  rw [← parsed_pkg, ← parsed_res]
  exact execParse_whole s hlen

/-! ### What PARSE depends on (R166) -/

/-- Each field ends no later than the header (`30_encoding.md` R75, R76). -/
theorem fields_end_within_header (c : ControlWord) :
    msgTypeAt c + c.msgTypeBytes ≤ headerLength c ∧ msgIdAt c + c.msgIdBytes ≤ headerLength c ∧
    fwdAt c + c.fwdBytes ≤ headerLength c ∧ bodyAt c + c.bodyBytes ≤ headerLength c ∧
    dataAt c + c.dataBytes ≤ headerLength c := by
  simp only [headerLength, dataAt, bodyAt, fwdAt, msgIdAt, msgTypeAt]
  omega

section HeaderBytes

variable {s s' : State} (h : ∀ k, k < wireLength s → s.readByte k = s'.readByte k)
include h

theorem controlInBuffer_congr_of_header : controlInBuffer s = controlInBuffer s' := by
  obtain ⟨hmin, -⟩ := wireLength_bounds s
  exact controlInBuffer_congr fun k hk => h k (by omega)

theorem memRead_congr_of_header {off n : Nat} (hn : off + n ≤ headerLength (controlInBuffer s)) :
    memRead s off n = memRead s' off n := by
  rw [headerLength_inBuffer] at hn
  exact memRead_congr s s' off n fun k hk => h (off + k) (by omega)

/-- Equal header bytes give equal results: every field ends within the header. -/
theorem parsed_congr :
    parsed s' = { s' with pkg := (parsed s).pkg, mtype := (parsed s).mtype, mid := (parsed s).mid,
                          fwd := (parsed s).fwd, body := (parsed s).body, data := (parsed s).data,
                          res := (parsed s).res, code := 0#3 } := by
  obtain ⟨hmtype, hmid, hfwd, hbody, hdata⟩ := fields_end_within_header (controlInBuffer s)
  simp only [parsed, ← controlInBuffer_congr_of_header h, memRead_congr_of_header h hmtype,
    memRead_congr_of_header h hmid, memRead_congr_of_header h hfwd, memRead_congr_of_header h hbody,
    memRead_congr_of_header h hdata]

theorem readReg_parsed_congr (r : Reg) (hr : r ≠ .val) : (parsed s).readReg r = (parsed s').readReg r := by
  rw [parsed_congr h]
  cases r with
  | val => exact absurd rfl hr
  | _ => rfl

end HeaderBytes

/-- Settles O40: equal control bytes announce equal lengths, so both states complete on equal header bytes or both
raise. -/
theorem parseDependsOnHeaderBytes : Obligations.ParseDependsOnHeaderBytes := by
  unfold Obligations.ParseDependsOnHeaderBytes
  intro s s' hblen hcontrol hheader
  by_cases hlen : wireLength s ≤ s.blen.toNat
  · have hbytes := hheader hlen
    obtain ⟨hmin, -⟩ := wireLength_bounds s
    have hlen' : wireLength s' ≤ s'.blen.toNat := by
      rwa [← wireLength_congr fun k hk => hbytes k (by omega), ← hblen]
    exact ⟨parsed s, parsed s', execParse_whole s hlen, execParse_whole s' hlen', rfl, fun hcode => absurd rfl hcode,
      fun _ => readReg_parsed_congr hbytes⟩
  · have hshort' : s'.blen.toNat < 2 ∨ s'.blen.toNat < wireLength s' := by
      rw [← hblen]
      by_cases h2 : 2 ≤ s.blen.toNat
      · exact .inr (by rw [← wireLength_congr (hcontrol h2)]; omega)
      · exact .inl (by omega)
    refine ⟨s.setCode 1#3, s'.setCode 1#3, execParse_short s (.inr (by omega)), execParse_short s' hshort', rfl,
      fun _ => ⟨s.readReg_setCode 1#3, s'.readReg_setCode 1#3⟩, fun hcode => ?_⟩
    exact absurd (show 1#3 = 0#3 from hcode) (by decide)

/-! ### PARSE undoes BUILD (R167) -/

/-- A header whose fields hold given values is parsed to these values. -/
theorem parsed_of_holds {p : State} {mt mi fl bl dl : Word}
    (hmtype : HoldsField p (msgTypeAt (controlInBuffer p)) (controlInBuffer p).msgTypeBytes mt)
    (hmid : HoldsField p (msgIdAt (controlInBuffer p)) (controlInBuffer p).msgIdBytes mi)
    (hfwd : HoldsField p (fwdAt (controlInBuffer p)) (controlInBuffer p).fwdBytes fl)
    (hbody : HoldsField p (bodyAt (controlInBuffer p)) (controlInBuffer p).bodyBytes bl)
    (hdata : HoldsField p (dataAt (controlInBuffer p)) (controlInBuffer p).dataBytes dl) :
    parsed p = { p with pkg := (controlInBuffer p).pkgType.setWidth 64, mtype := mt, mid := mi, fwd := fl, body := bl,
                        data := dl, res := BitVec.ofNat 64 (headerLength (controlInBuffer p)), code := 0#3 } := by
  obtain ⟨-, wmtype, -, wmid, wfwd, wbody, wdata⟩ := controlInBuffer_inRange p
  simp only [parsed, memRead_of_holdsField p _ _ _ (by omega) hmtype, memRead_of_holdsField p _ _ _ wmid hmid,
    memRead_of_holdsField p _ _ _ (by omega) hfwd, memRead_of_holdsField p _ _ _ (by omega) hbody,
    memRead_of_holdsField p _ _ _ (by omega) hdata]

/-- What stands at offset 0 after BUILD is the control word it made. -/
theorem controlInBuffer_built (s : State) : controlInBuffer (built s) = controlToBuild s := by
  rw [controlInBuffer, readByte_built_zero, readByte_built_one,
    (controlToBuild_inRange s).controlOfBytes_controlBytes]

/-- A packet type in range comes back whole from its four bits. -/
theorem FieldsFit.setWidth_pkgType {s : State} (h : FieldsFit s) : (controlToBuild s).pkgType.setWidth 64 = s.pkg := by
  apply BitVec.eq_of_toNat_eq
  rw [BitVec.toNat_setWidth_of_le (by decide), h.controlToBuild_pkgType_toNat]

/-- Settles O36: the control word BUILD made announces the widths in which it stored the fields, so PARSE reads each
value back where BUILD put it. -/
theorem parseUndoesBuild : Obligations.ParseUndoesBuild := by
  unfold Obligations.ParseUndoesBuild
  refine fun s h => ⟨built s, execBuild_fits s h, rfl, fun p hbuf hresets hblen => ?_⟩
  have hbytes (k : Nat) : p.readByte k = (built s).readByte k := State.readByte_congr _ _ k hbuf hresets
  have hc : controlInBuffer p = controlToBuild s :=
    (controlInBuffer_congr fun k _ => hbytes k).trans (controlInBuffer_built s)
  have hlen : wireLength p ≤ p.blen.toNat := by rw [← headerLength_inBuffer, hc, hblen, blen_built_toNat]
  obtain ⟨fmtype, fmid, ffwd, fbody, fdata⟩ := h.built_holds
  rw [← hc] at fmtype fmid ffwd fbody fdata
  have hparsed := parsed_of_holds (fmtype.congr fun _ _ => hbytes _) (fmid.congr fun _ _ => hbytes _)
    (ffwd.congr fun _ _ => hbytes _) (fbody.congr fun _ _ => hbytes _) (fdata.congr fun _ _ => hbytes _)
  rw [hc, h.setWidth_pkgType] at hparsed
  exact (execParse_whole p hlen).trans (congrArg _ hparsed)

end Sys2Proof.Machine

/-! # Exceptions (`60_exceptions.md`): statement O18 -/

namespace Sys2Proof.Machine

/-- A command raises one of its exceptions or completes with code 0 (R186, `10_state.md` R27). -/
theorem exec_raises_or_completes {i : Instr} (hi : i.isCommand = true) (s : State) :
    (∃ e, exec i s = raise e s) ∨ ∃ t, exec i s = .next t ∧ t.code = 0#3 := by
  obtain ⟨-, e, -, hraise⟩ | h := exec_cases i s
  · exact .inl ⟨e, hraise⟩
  · right
    cases i with
    | hdrByte0 _ _ _ | hdrByte1 _ _ _ => cases hi
    | reservedOp7 _ => exact h.elim
    | fenc _ _ | fdec _ _ =>
      obtain ⟨-, -, h⟩ := h
      exact ⟨_, h, rfl⟩
    | build | parse =>
      obtain ⟨-, h⟩ := h
      exact ⟨_, h, rfl⟩
    | _ => exact ⟨_, h, rfl⟩

/-- The states a command of the block may end in when it starts in `s`: any with code 0, else `s` but for the code. -/
def ExceptionKeeps (s t : State) : Prop := t.code ≠ 0#3 → t = { s with code := t.code }

theorem exec_exceptionKeeps {i : Instr} (hi : i.isCommand = true) (s : State) :
    ∃ t, exec i s = .next t ∧ ExceptionKeeps s t := by
  obtain ⟨e, hraise⟩ | ⟨t, hnext, hcode⟩ := exec_raises_or_completes hi s
  · exact ⟨_, hraise, fun _ => rfl⟩
  · exact ⟨t, hnext, fun hne => absurd hcode hne⟩

theorem isCommand_of_isSeven {i : Instr} (h : isSeven i = true) : i.isCommand = true := by
  cases i with
  | hdrByte0 _ _ _ | hdrByte1 _ _ _ => cases h
  | _ => rfl

/-- A value written to `CMD` runs one of the seven commands, or raises. -/
theorem runCommand_exceptionKeeps (v : Word) (s : State) :
    ∃ t, runCommand v s = .next t ∧ ExceptionKeeps s t := by
  obtain ⟨hillegal, hlegal⟩ := decode_command_decided v
  by_cases hv : IllegalValue v
  · exact ⟨_, runCommand_of_selectsNone s (hillegal hv), fun _ => rfl⟩
  · obtain ⟨i, hi, hseven, -⟩ := hlegal hv
    rw [runCommand_ok s hi]
    exact exec_exceptionKeeps (isCommand_of_isSeven hseven) s

/-- Settles O18: a command that does not complete with code 0 has raised, and the write to `CMD` adds to its state only
the reply with its code. -/
theorem exceptionsChangeOnlyStatus : Obligations.ExceptionsChangeOnlyStatus := by
  unfold Obligations.ExceptionsChangeOnlyStatus
  refine ⟨fun i s hi => exec_exceptionKeeps hi s, fun s v rest h => ?_⟩
  obtain ⟨t, hrun, hkeeps⟩ := runCommand_exceptionKeeps v { s with pending := rest }
  refine ⟨t.pushReply (.code t.code), ?_, fun hcode => ?_⟩
  · rw [step_write_cmd h rfl, hrun]
    rfl
  · exact congrArg (fun u => u.pushReply (.code t.code)) (hkeeps hcode)

end Sys2Proof.Machine

/-! # The encoder and the decoder undo each other (`30_encoding.md`): statements O11, O12, O13 -/

namespace Sys2Proof.Machine

/-! ### What the decoder's parts accept (R85, R86) -/

section Accepts

variable {c : BitVec 16} {i j : Instr}

theorem decodeBare_eq_ok_iff :
    decodeBare c i = .ok j ↔ Cmd.z c = false ∧ Cmd.w c = 0#4 ∧ Cmd.off c = 0#8 ∧ i = j := by
  rw [decodeBare]
  split
  next h =>
    refine ⟨nofun, ?_⟩
    rintro ⟨hz, hw, hoff, -⟩
    simp [hz, hw, hoff] at h
  next h => simp_all

theorem decodeWidth_eq_ok_iff :
    decodeWidth c = .ok j ↔
      Cmd.off c = 0#8 ∧ legalCap (Cmd.w c) = true ∧ Instr.width (Cmd.z c) (Cmd.w c) = j := by
  have hcap : legalCap (Cmd.w c) = true ↔ ¬ ((Cmd.w c).toNat < 1 ∨ Config.MAXW < (Cmd.w c).toNat) := by
    rw [legalCap_iff, Config.MAXW]
    omega
  rw [decodeWidth, hcap]
  split
  next hoff => simp_all
  next hoff => split <;> simp_all

theorem decodeField_eq_ok_iff :
    decodeField c i = .ok j ↔ Cmd.z c = false ∧ (Cmd.w c).toNat ≤ 8 ∧ i = j := by
  rw [decodeField, ← Nat.not_lt]
  split
  next hz => simp [hz]
  next hz => split <;> simp_all

end Accepts

/-! ### The reserved word (R86 item 2) -/

/-- The word of `op` 7 is 7 above its other 13 bits. -/
theorem reservedWord_toNat (r : BitVec 13) : (7#3 ++ r).toNat = 7 * 8192 + r.toNat := by
  have hr := r.isLt
  rw [BitVec.toNat_append, ← Nat.shiftLeft_add_eq_or_of_lt hr, Nat.shiftLeft_eq]
  rfl

theorem op_reservedWord (r : BitVec 13) : Cmd.op (7#3 ++ r) = 7#3 := by
  have hr := r.isLt
  apply BitVec.eq_of_toNat_eq
  rw [Cmd.op_toNat, reservedWord_toNat]
  simp only [BitVec.toNat_ofNat]
  omega

theorem rest_reservedWord (r : BitVec 13) : (7#3 ++ r).extractLsb' 0 13 = r :=
  BitVec.extractLsb'_append_eq_right

/-- A word of `op` 7 is rebuilt from its other 13 bits. -/
theorem reservedWord_rest {c : BitVec 16} (h : (Cmd.op c).toNat = 7) : 7#3 ++ c.extractLsb' 0 13 = c := by
  have hc := c.isLt
  apply BitVec.eq_of_toNat_eq
  rw [Cmd.op_toNat] at h
  rw [reservedWord_toNat, BitVec.extractLsb'_toNat, Nat.shiftRight_zero]
  omega

/-! ### Decoding undoes encoding -/

theorem decode_commandValue (op : BitVec 3) (z : Bool) (w : BitVec 4) (off : BitVec 8) :
    decode (commandValue op z w off) = decodeWord (commandWord op z w off) :=
  decode_widened _

theorem decodeByte0_byte0 (p : BitVec 4) (t f : BitVec 2) :
    decodeByte0 (Wire.byte0 (p.setWidth 8) (t.setWidth 8) (f.setWidth 8)) = .hdrByte0 p t f := by
  revert p t f; decide

theorem decodeByte1_byte1 (i : BitVec 3) (b : BitVec 2) (d : BitVec 3) :
    decodeByte1 (Wire.byte1 (i.setWidth 8) (b.setWidth 8) (d.setWidth 8)) = .hdrByte1 i b d := by
  revert i b d; decide

theorem decodeField_commandWord {op : BitVec 3} {off : BitVec 8} {w : BitVec 4} (hw : w.toNat ≤ 8) (i : Instr) :
    decodeField (commandWord op false w off) i = .ok i :=
  decodeField_eq_ok_iff.mpr ⟨Cmd.z_commandWord .., by rwa [Cmd.w_commandWord], rfl⟩

theorem decodeWidth_commandWord {op : BitVec 3} {z : Bool} {w : BitVec 4} (hw : legalCap w = true) :
    decodeWidth (commandWord op z w 0#8) = .ok (.width z w) :=
  decodeWidth_eq_ok_iff.mpr ⟨Cmd.off_commandWord .., by rwa [Cmd.w_commandWord],
    by rw [Cmd.z_commandWord, Cmd.w_commandWord]⟩

theorem decode_encode_reservedOp7 (r : BitVec 13) : decode (encode (.reservedOp7 r)) = .ok (.reservedOp7 r) := by
  rw [encode, decode_widened, decodeWord, op_reservedWord, rest_reservedWord]
  rfl

/-- Every well-formed instruction decodes from its own words, a pseudo-command to its WIDTH. -/
theorem decode_encode {i : Instr} (h : i.wellFormed = true) : decode (encode i) = .ok i.expand := by
  cases i with
  | width z w =>
    rw [encode, decode_commandValue, decodeWord, Cmd.op_commandWord]
    exact decodeWidth_commandWord h
  | fenc off w | fdec off w =>
    rw [encode, decode_commandValue, decodeWord, Cmd.op_commandWord, Cmd.off_commandWord, Cmd.w_commandWord]
    exact decodeField_commandWord (of_decide_eq_true h) _
  | reservedOp7 r => cases h
  | hdrByte0 p t f => exact congrArg Except.ok (decodeByte0_byte0 p t f)
  | hdrByte1 i b d => exact congrArg Except.ok (decodeByte1_byte1 i b d)
  | zzenc | zzdec | build | parse | wmsgid | wmsgtype | wfwd | wbody | wdata => rfl

/-- Settles O11: the well-formed instructions, then the words of the reserved `op`, which are ill-formed. -/
theorem encodeThenDecode : Obligations.EncodeThenDecode := by
  unfold Obligations.EncodeThenDecode
  rintro i (h | ⟨r, rfl⟩)
  · exact decode_encode h
  · exact decode_encode_reservedOp7 r

/-! ### Encoding undoes decoding -/

/-- A word whose fields are given is the word they make. -/
theorem commandValue_of_fields {c : BitVec 16} {op : BitVec 3} {z : Bool} {w : BitVec 4} {off : BitVec 8}
    (hop : (Cmd.op c).toNat = op.toNat) (hz : Cmd.z c = z) (hw : Cmd.w c = w) (hoff : Cmd.off c = off) :
    commandValue op z w off = .command (c.setWidth 64) := by
  rw [commandValue, ← BitVec.eq_of_toNat_eq hop, ← hz, ← hw, ← hoff, commandWord_fields]

theorem encode_of_decodeBare {c : BitVec 16} {op : BitVec 3} {i j : Instr} (hop : (Cmd.op c).toNat = op.toNat)
    (hj : encode j = commandValue op false 0#4 0#8) (h : decodeBare c j = .ok i) :
    encode i = .command (c.setWidth 64) := by
  obtain ⟨hz, hw, hoff, rfl⟩ := decodeBare_eq_ok_iff.mp h
  exact hj.trans (commandValue_of_fields hop hz hw hoff)

theorem encode_of_decodeField {c : BitVec 16} {op : BitVec 3} {i j : Instr} (hop : (Cmd.op c).toNat = op.toNat)
    (hj : encode j = commandValue op false (Cmd.w c) (Cmd.off c)) (h : decodeField c j = .ok i) :
    encode i = .command (c.setWidth 64) := by
  obtain ⟨hz, -, rfl⟩ := decodeField_eq_ok_iff.mp h
  exact hj.trans (commandValue_of_fields hop hz rfl rfl)

theorem encode_of_decodeWord {c : BitVec 16} {i : Instr} (h : decodeWord c = .ok i) :
    encode i = .command (c.setWidth 64) := by
  have hlt : (Cmd.op c).toNat < 8 := (Cmd.op c).isLt
  rw [decodeWord] at h
  generalize hop : (Cmd.op c).toNat = n at h hlt
  match n, hlt with
  | 0, _ =>
    obtain ⟨hoff, -, rfl⟩ := decodeWidth_eq_ok_iff.mp h
    exact commandValue_of_fields hop rfl rfl hoff
  | 1, _ => exact encode_of_decodeBare (op := 1#3) hop rfl h
  | 2, _ => exact encode_of_decodeBare (op := 2#3) hop rfl h
  | 3, _ => exact encode_of_decodeField (op := 3#3) hop rfl h
  | 4, _ => exact encode_of_decodeField (op := 4#3) hop rfl h
  | 5, _ => exact encode_of_decodeBare (op := 5#3) hop rfl h
  | 6, _ => exact encode_of_decodeBare (op := 6#3) hop rfl h
  | 7, _ =>
    obtain rfl : .reservedOp7 _ = i := Except.ok.inj h
    rw [encode, reservedWord_rest hop]

/-- A value the decoder accepts is below 2^16, so it is its own low half widened. -/
theorem encode_of_decode_command {v : Word} {i : Instr} (h : decode (.command v) = .ok i) : encode i = .command v := by
  by_cases hv : v.toNat < 2 ^ 16
  · rw [decode_of_lt v hv] at h
    have hwide : (v.setWidth 16).setWidth 64 = v := by
      apply BitVec.eq_of_toNat_eq
      simp only [BitVec.toNat_setWidth]
      omega
    rw [encode_of_decodeWord h, hwide]
  · rw [decode_of_upperBits v (Nat.not_lt.mp hv)] at h
    cases h

/-- Settles O12: the three kinds of encoding, of which the control bytes are always accepted. -/
theorem decodeThenEncode : Obligations.DecodeThenEncode := by
  unfold Obligations.DecodeThenEncode
  intro e i h
  cases e with
  | command v => exact encode_of_decode_command h
  | wire0 b =>
    cases h
    exact encode_decodeByte0 b
  | wire1 b =>
    cases h
    exact encode_decodeByte1 b

/-- Settles O13: ten closed words, by evaluation. -/
theorem wordsOfTheSpecDecode : Obligations.WordsOfTheSpecDecode := by
  unfold Obligations.WordsOfTheSpecDecode
  decide

end Sys2Proof.Machine

/-! # The whole machine: the invariant, completion, the status (`10_state.md`): statements O15, O16, O17, O6 -/

namespace Sys2Proof.Machine

/-! ### What keeps the invariant, operation by operation -/

/-- The host's program, its record and the registers do not matter to the invariant. -/
theorem State.Inv.congr {s t : State} (h : s.Inv) (hbuf : t.buf = s.buf) (hblen : t.blen = s.blen)
    (hcode : t.code = s.code) : t.Inv := by
  rwa [State.Inv, hbuf, hblen, hcode]

theorem State.Inv.setReg {s : State} (h : s.Inv) (r : Reg) (v : Word) : (s.setReg r v).Inv :=
  h.congr (s.setReg_buf r v) (s.setReg_blen r v) (s.setReg_code r v)

theorem State.Inv.writeByte {s : State} (h : s.Inv) {k : Nat} (hk : k < Config.BUFCAP) (b : Byte) :
    (s.writeByte k b).Inv := by
  obtain ⟨hbuf, hblen, hcode⟩ := h
  exact ⟨Memory.wf_insert _ k b hbuf hk, hblen, hcode⟩

theorem State.Inv.memWrite {s : State} (h : s.Inv) {off n : Nat} (hn : off + n ≤ Config.BUFCAP) (v : Word) :
    (memWrite s off n v).Inv := by
  obtain ⟨hbuf, hblen, hcode⟩ := h
  rw [memWrite_only_buf]
  exact ⟨memWrite_wf s off n v hbuf hn, hblen, hcode⟩

/-- A command may complete with any of the codes. -/
theorem State.Inv.setCode {s : State} (h : s.Inv) (e : Completion) : (s.setCode (completionCode e)).Inv := by
  obtain ⟨hbuf, hblen, -⟩ := h
  exact ⟨hbuf, hblen, completionCode_le e⟩

/-- A header is shorter than the buffer, and its length is what BUILD leaves in `BLEN`. -/
theorem State.Inv.built {s : State} (h : s.Inv) : (built s).Inv := by
  obtain ⟨hbuf, -, -⟩ := h
  obtain ⟨-, hmax⟩ := (controlToBuild_inRange s).length
  have hcap : headerLength (controlToBuild s) ≤ Config.BUFCAP := hmax.trans (by decide)
  refine ⟨writeFields_wf _ _ (writeControl_wf _ s hbuf) hcap, ?_, Nat.zero_le 4⟩
  rwa [blen_built_toNat]

/-- `BLEN` is written only by a value that is at most `BUFCAP` (R28). -/
theorem State.Inv.hostSetBlen {s : State} (h : s.Inv) (v : Word) : (hostSetBlen v s).Inv := by
  obtain ⟨hbuf, hblen, hcode⟩ := h
  rw [hostSetBlen_eq]
  refine ⟨hbuf, ?_, hcode⟩
  split
  next hv => exact (Nat.mod_le _ _).trans hv
  next => exact hblen

/-! ### What a write and a step can do, said once -/

theorem locate_eq_cmd {a : BitVec 9} (h : locate a = .cmd) : a = Config.CMD_ADDR := by
  revert a; decide

theorem runCommand_next (v : Word) (s : State) : ∃ t, runCommand v s = .next t := by
  obtain ⟨t, ht, -⟩ := runCommand_exceptionKeeps v s
  exact ⟨t, ht⟩

/-- A write is ignored, or sets a register, `BLEN` or a byte of the buffer, or runs a command and returns its code. -/
theorem hostWrite_cases (a : BitVec 9) (v : Word) (s : State) :
    hostWrite a v s = .next s ∨
    (∃ r, hostWrite a v s = .next (s.setReg r v)) ∨
    hostWrite a v s = .next (hostSetBlen v s) ∨
    (∃ k, k < Config.BUFCAP ∧ hostWrite a v s = .next (s.writeByte k (v.setWidth 8))) ∨
    (a = Config.CMD_ADDR ∧ ∃ t, runCommand v s = .next t ∧
      hostWrite a v s = .next (t.pushReply (.code t.code))) := by
  unfold hostWrite
  cases hloc : locate a with
  | reg r => exact .inr (.inl ⟨r, rfl⟩)
  | status | unmapped => exact .inl rfl
  | blen => exact .inr (.inr (.inl rfl))
  | buf k => exact .inr (.inr (.inr (.inl ⟨k, locate_buf_lt a k hloc, rfl⟩)))
  | cmd =>
    obtain ⟨t, ht⟩ := runCommand_next v s
    exact .inr (.inr (.inr (.inr ⟨locate_eq_cmd hloc, t, ht, congrArg returnCode ht⟩)))

/-- A step is idle, or performs the next transaction of the host's program. -/
theorem step_cases (s : State) :
    step s = .next s ∨ ∃ tx rest, s.pending = tx :: rest ∧ step s = transact tx { s with pending := rest } := by
  cases h : s.pending with
  | nil => exact .inl (step_idle s h)
  | cons tx rest => exact .inr ⟨tx, rest, rfl, step_cons s tx rest h⟩

/-! ### Instructions and transactions keep the invariant -/

theorem exec_inv (i : Instr) {s : State} (h : s.Inv) : ∃ t, exec i s = .next t ∧ t.Inv := by
  obtain ⟨-, e, -, hraise⟩ | hdone := exec_cases i s
  · exact ⟨_, hraise, h.setCode e⟩
  · cases i with
    | width _ _ | zzenc | zzdec | wmsgid | wmsgtype | wfwd | wbody | wdata =>
      exact ⟨_, hdone, (h.setReg .res _).setCode .ok⟩
    | fenc off w =>
      obtain ⟨hoff, hw, -⟩ := hdone
      exact ⟨_, exec_fenc_legal s off w hw hoff, (h.memWrite hoff s.val).setCode .ok⟩
    | fdec off w =>
      obtain ⟨-, -, hexec⟩ := hdone
      exact ⟨_, hexec, (h.setReg .res _).setCode .ok⟩
    | build =>
      obtain ⟨-, hexec⟩ := hdone
      exact ⟨_, hexec, h.built⟩
    | parse =>
      obtain ⟨-, hexec⟩ := hdone
      exact ⟨_, hexec, (h.setCode .ok).congr rfl rfl rfl⟩
    | reservedOp7 r => exact hdone.elim
    | hdrByte0 _ _ _ | hdrByte1 _ _ _ =>
      obtain ⟨b, hexec⟩ := hdone
      exact ⟨_, hexec, h.writeByte (by decide) b⟩

theorem runCommand_inv (v : Word) {s : State} (h : s.Inv) : ∃ t, runCommand v s = .next t ∧ t.Inv := by
  cases hdec : decode (.command v) with
  | ok i =>
    rw [runCommand_ok s hdec]
    exact exec_inv i h
  | error e => exact ⟨_, runCommand_error s hdec, h.setCode .illegalCommand⟩

theorem hostWrite_inv (a : BitVec 9) (v : Word) {s : State} (h : s.Inv) :
    ∃ t, hostWrite a v s = .next t ∧ t.Inv := by
  obtain hw | ⟨r, hw⟩ | hw | ⟨k, hk, hw⟩ | ⟨-, t, ht, hw⟩ := hostWrite_cases a v s
  · exact ⟨_, hw, h⟩
  · exact ⟨_, hw, h.setReg r v⟩
  · exact ⟨_, hw, h.hostSetBlen v⟩
  · exact ⟨_, hw, h.writeByte hk _⟩
  · obtain ⟨u, hu, hinv⟩ := runCommand_inv v h
    obtain rfl : t = u := Host.Outcome.next.inj (ht.symm.trans hu)
    exact ⟨_, hw, hinv.congr rfl rfl rfl⟩

theorem inv_reset : State.reset.Inv := ⟨Memory.wf_reset, Nat.zero_le _, Nat.zero_le _⟩

theorem transact_inv (tx : HostTx) {s : State} (h : s.Inv) : ∃ t, transact tx s = .next t ∧ t.Inv := by
  cases tx with
  | write a v => exact hostWrite_inv a v h
  | read a => exact ⟨_, rfl, h.congr rfl rfl rfl⟩
  | reset => exact ⟨_, rfl, inv_reset.congr rfl rfl rfl⟩

/-- Settles O15: an idle step, or a transaction, each of which keeps the invariant. -/
theorem stepKeepsInvariant : Obligations.StepKeepsInvariant := by
  unfold Obligations.StepKeepsInvariant
  intro s t h hstep
  obtain hidle | ⟨tx, rest, -, htx⟩ := step_cases s
  · obtain rfl : s = t := Host.Outcome.next.inj (hidle.symm.trans hstep)
    exact h
  · have hrest : { s with pending := rest }.Inv := h.congr rfl rfl rfl
    obtain ⟨u, hu, hinv⟩ := transact_inv tx hrest
    obtain rfl : u = t := Host.Outcome.next.inj ((htx.trans hu).symm.trans hstep)
    exact hinv

/-- Settles O16: nothing is stored, and `BLEN` and the code are 0. -/
theorem resetMeetsInvariant : Obligations.ResetMeetsInvariant := by
  unfold Obligations.ResetMeetsInvariant
  exact inv_reset

/-! ### Completion, and the status (R187, R34) -/

theorem hostWrite_next (a : BitVec 9) (v : Word) (s : State) : ∃ t, hostWrite a v s = .next t := by
  obtain h | ⟨_, h⟩ | h | ⟨_, -, h⟩ | ⟨-, _, -, h⟩ := hostWrite_cases a v s <;> exact ⟨_, h⟩

/-- Settles O17: an idle step, a read and a `Reset` answer a next state at once, and a write does in each of its
cases. -/
theorem everyStepCompletes : Obligations.EveryStepCompletes := by
  unfold Obligations.EveryStepCompletes
  intro s
  obtain hidle | ⟨tx, rest, -, htx⟩ := step_cases s
  · exact ⟨s, hidle⟩
  · rw [htx]
    cases tx with
    | write a v => exact hostWrite_next a v _
    | read a => exact ⟨_, rfl⟩
    | reset => exact ⟨_, rfl⟩

/-- A write elsewhere than to `CMD` keeps the code. -/
theorem hostWrite_code {a : BitVec 9} {v : Word} {s t : State} (ha : a ≠ Config.CMD_ADDR)
    (h : hostWrite a v s = .next t) : t.code = s.code := by
  obtain hw | ⟨r, hw⟩ | hw | ⟨k, -, hw⟩ | ⟨hcmd, -⟩ := hostWrite_cases a v s
  · cases hw.symm.trans h
    rfl
  · cases hw.symm.trans h
    exact s.setReg_code r v
  · cases hw.symm.trans h
    rw [hostSetBlen_eq]
  · cases hw.symm.trans h
    rfl
  · exact absurd hcmd ha

/-- Settles O6: a read only records its value, and a write that is not to `CMD` keeps the code. -/
theorem onlyCommandsChangeStatus : Obligations.OnlyCommandsChangeStatus := by
  unfold Obligations.OnlyCommandsChangeStatus
  intro s t tx rest hpending hreset hcmd hstep
  rw [step_cons s tx rest hpending] at hstep
  cases tx with
  | write a v =>
    have ha : a ≠ Config.CMD_ADDR := fun ha => hcmd v (congrArg (HostTx.write · v) ha)
    exact hostWrite_code (s := { s with pending := rest }) ha hstep
  | read a =>
    cases hstep
    rfl
  | reset => exact absurd rfl hreset

end Sys2Proof.Machine

/-! # FENC and FDEC, with their exceptions (`42_field.md`): statements O29, O30 -/

namespace Sys2Proof.Machine

/-! ### The two exceptions, the illegal width first (`60_exceptions.md` R189) -/

section FieldExceptions

variable (s : State) (off : BitVec 8) {w : BitVec 4}

theorem not_legalWidth (h : 8 < w.toNat) : ¬ legalWidth w = true := fun hw =>
  absurd (of_decide_eq_true hw) (Nat.not_le.mpr h)

theorem not_inBounds {off n : Nat} (h : Config.BUFCAP < off + n) : ¬ inBounds off n = true := fun hin =>
  absurd (of_decide_eq_true hin) (Nat.not_le.mpr h)

theorem exec_fenc_illegalWidth (h : 8 < w.toNat) : exec (.fenc off w) s = raise .illegalCommand s := by
  rw [exec, execFenc, if_neg (not_legalWidth h)]

theorem exec_fdec_illegalWidth (h : 8 < w.toNat) : exec (.fdec off w) s = raise .illegalCommand s := by
  rw [exec, execFdec, if_neg (not_legalWidth h)]

theorem exec_fenc_outOfBounds (hw : w.toNat ≤ 8) (h : Config.BUFCAP < off.toNat + w.toNat) :
    exec (.fenc off w) s = raise .bufferBounds s := by
  rw [exec, execFenc, if_pos (legalWidth_of_le hw), if_neg (not_inBounds h)]

theorem exec_fdec_outOfBounds (hw : w.toNat ≤ 8) (h : Config.BUFCAP < off.toNat + w.toNat) :
    exec (.fdec off w) s = raise .bufferBounds s := by
  rw [exec, execFdec, if_pos (legalWidth_of_le hw), if_neg (not_inBounds h)]

end FieldExceptions

/-- Settles O29: in bounds the bytes are those of the store, and each of the two exceptions leaves the state but for its
code. -/
theorem fencStoresLowBytes : Obligations.FencStoresLowBytes := by
  unfold Obligations.FencStoresLowBytes
  intro s off w
  refine ⟨fun hw hoff => ⟨_, exec_fenc_legal s off w hw hoff, ?_, fun k => ?_⟩, exec_fenc_illegalWidth s off,
    exec_fenc_outOfBounds s off⟩
  · rw [memWrite_only_buf]
    rfl
  · rw [State.readByte_setCode, readByte_memWrite]
    split
    · exact byteOf_toNat s.val _
    · rfl

/-- Settles O30: in bounds `RES` receives what the bytes hold, and each of the two exceptions leaves the state but for
its code. -/
theorem fdecLoadsZeroExtended : Obligations.FdecLoadsZeroExtended := by
  unfold Obligations.FdecLoadsZeroExtended
  intro s off w
  exact ⟨fun hw hoff => ⟨_, exec_fdec_legal s off w hw hoff, memRead_holdsField s _ _ hw⟩,
    exec_fdec_illegalWidth s off, exec_fdec_outOfBounds s off⟩

end Sys2Proof.Machine

/-! # BUILD and PARSE together (`43_build.md` R149, `44_parse.md` R165): statements O37, O39 -/

namespace Sys2Proof.Machine

/-! ### How the two commands end (R141, R161, R163) -/

/-- Only values that fit let BUILD end with code 0. -/
theorem exec_build_ok {s t : State} (h : exec .build s = .next t) (hcode : t.code = 0#3) :
    FieldsFit s ∧ t = built s := by
  by_cases hfit : FieldsFit s
  · exact ⟨hfit, Host.Outcome.next.inj (h.symm.trans (execBuild_fits s hfit))⟩
  · cases h.symm.trans (execBuild_overflow s hfit)
    exact absurd (show 2#3 = 0#3 from hcode) (by decide)

/-- Only a whole header lets PARSE end with code 0. -/
theorem exec_parse_ok {s t : State} (h : exec .parse s = .next t) (hcode : t.code = 0#3) :
    wireLength s ≤ s.blen.toNat ∧ t = parsed s := by
  by_cases hlen : wireLength s ≤ s.blen.toNat
  · exact ⟨hlen, Host.Outcome.next.inj (h.symm.trans (execParse_whole s hlen))⟩
  · cases h.symm.trans (execParse_short s (.inr (Nat.not_le.mp hlen)))
    exact absurd (show 1#3 = 0#3 from hcode) (by decide)

/-! ### No built header begins another (R149) -/

/-- The header BUILD leaves announces the length it put in `BLEN`. -/
theorem wireLength_built (s : State) : wireLength (built s) = (built s).blen.toNat := by
  rw [← headerLength_inBuffer, controlInBuffer_built, blen_built_toNat]

/-- The header BUILD leaves is parsed to the six values it was built from. -/
theorem FieldsFit.readReg_parsed_built {s : State} (h : FieldsFit s) (r : Reg) (hr : r ≠ .res) :
    (parsed (built s)).readReg r = s.readReg r := by
  obtain ⟨fmtype, fmid, ffwd, fbody, fdata⟩ := h.built_holds
  rw [← controlInBuffer_built] at fmtype fmid ffwd fbody fdata
  rw [parsed_of_holds fmtype fmid ffwd fbody fdata, controlInBuffer_built, h.setWidth_pkgType]
  cases r with
  | res => exact absurd rfl hr
  | pkg | mtype | mid | fwd | body | data | val => rfl

/-- Settles O37: both headers begin with the same bytes, so PARSE reads the same length and the same six values from
them, and these are the ones each was built from. -/
theorem builtHeadersPrefixFree : Obligations.BuiltHeadersPrefixFree := by
  unfold Obligations.BuiltHeadersPrefixFree
  intro s s' t t' hbuild hbuild' hcode hcode' hbytes
  obtain ⟨hfit, rfl⟩ := exec_build_ok hbuild hcode
  obtain ⟨hfit', rfl⟩ := exec_build_ok hbuild' hcode'
  rw [← wireLength_built] at hbytes
  have hblen : (built s).blen = (built s').blen := by
    apply BitVec.eq_of_toNat_eq
    rw [← wireLength_built, ← wireLength_built, ← headerLength_inBuffer, ← headerLength_inBuffer,
      controlInBuffer_congr_of_header hbytes]
  have hreg (r : Reg) (hval : r ≠ .val) (hres : r ≠ .res) : s.readReg r = s'.readReg r := by
    rw [← hfit.readReg_parsed_built r hres, ← hfit'.readReg_parsed_built r hres, readReg_parsed_congr hbytes r hval]
  exact ⟨hblen, hreg .pkg nofun nofun, hreg .mtype nofun nofun, hreg .mid nofun nofun, hreg .fwd nofun nofun,
    hreg .body nofun nofun, hreg .data nofun nofun⟩

/-! ### Parsed values pass BUILD's range check (R165) -/

/-- A field value of `n` bytes is in range of any greater cap. -/
theorem HoldsField.lt_of_le {s : State} {o n m : Nat} {v : Word} (h : HoldsField s o n v) (hnm : n ≤ m) :
    v.toNat < 2 ^ (8 * m) :=
  h.1.trans_le (Nat.pow_le_pow_right Nat.two_pos (by omega))

/-- The widths a control word can announce are BUILD's caps. -/
theorem fieldsFit_parsed (s : State) : FieldsFit (parsed s) := by
  obtain ⟨-, hmtype, -, -, hfwd, hbody, hdata⟩ := controlInBuffer_inRange s
  obtain ⟨fmtype, -, ffwd, fbody, fdata⟩ := parsed_holds s
  have hpkg : (parsed s).pkg.toNat < 16 := by
    have h0 := (s.readByte 0).isLt
    rw [parsed_pkg, wirePkg, BitVec.toNat_ofNat]
    omega
  exact ⟨hpkg, fmtype.lt_of_le hmtype, ffwd.lt_of_le hfwd, fbody.lt_of_le hbody, fdata.lt_of_le hdata⟩

/-- Settles O39: a successful PARSE left the header's values, whose widths are in range, and the header's length. -/
theorem parsedValuesPassBuildCheck : Obligations.ParsedValuesPassBuildCheck := by
  unfold Obligations.ParsedValuesPassBuildCheck
  intro s t hparse hcode
  obtain ⟨-, rfl⟩ := exec_parse_ok hparse hcode
  obtain ⟨hmin, hmax⟩ := wireLength_bounds s
  have hres : (parsed s).res.toNat = wireLength s := by
    rw [parsed_res, BitVec.toNat_ofNat, Nat.mod_eq_of_lt (by omega)]
  have hfit := fieldsFit_parsed s
  exact ⟨hfit, by omega, by omega, built (parsed s), execBuild_fits _ hfit, rfl⟩

end Sys2Proof.Machine

/-! # Single transactions (`10_state.md`, `70_reset_and_hazards.md`): statements O2, O3, O5, O9, O42, O43, O14 -/

namespace Sys2Proof.Machine

/-! ### Reset, an idle step, a read -/

/-- Settles O2: the step is `hostReset`, which takes its registers from the reset state. -/
theorem resetTransactionClearsBlock : Obligations.ResetTransactionClearsBlock := by
  unfold Obligations.ResetTransactionClearsBlock
  intro s rest h
  exact ⟨_, step_cons s _ rest h, readReg_reset [], rfl, rfl, rfl, rfl⟩

/-- Settles O3: an idle step changes nothing, and a read's step only the host's program and record. -/
theorem blockDoesNothingOnItsOwn : Obligations.BlockDoesNothingOnItsOwn := by
  unfold Obligations.BlockDoesNothingOnItsOwn
  exact ⟨step_idle, fun s a _ h => ⟨hostRead a s, step_read s h⟩⟩

/-! ### A byte written and read back (R59, R62) -/

/-- The buffer's window of the address map, by offset. -/
theorem locate_window {k : Nat} (hk : k < Config.BUFCAP) : locate (BitVec.ofNat 9 (0x100 + k)) = .buf k := by
  refine locate_buf _ k hk ?_
  rw [BitVec.toNat_ofNat, Nat.mod_eq_of_lt (by simp only [Config.BUFCAP] at hk; omega)]

theorem hostRead_window {k : Nat} (hk : k < Config.BUFCAP) (s : State) :
    hostRead (BitVec.ofNat 9 (0x100 + k)) s = BitVec.ofNat 64 (s.readByte k).toNat := by
  rw [← hostRead_window_toNat s k hk, BitVec.ofNat_toNat, BitVec.setWidth_eq]

/-- Settles O5: the write leaves `v[7:0]` at its offset and keeps the other bytes, and the read returns the byte. -/
theorem byteReadsBackLastWrite : Obligations.ByteReadsBackLastWrite := by
  unfold Obligations.ByteReadsBackLastWrite
  intro s k j v rest hk hj h
  refine ⟨_, _, step_write_buf h (locate_window hk), step_read _ rfl, ?_⟩
  rw [hostRead_window hj, State.readByte_writeByte]
  split
  · rw [BitVec.toNat_setWidth]
    rfl
  · rfl

/-! ### The control bytes (R71, R72, R79) and the reserved `op` (R86) -/

/-- A byte read as its fields and executed is that byte received at offset 0. -/
theorem exec_decodeByte0 (b : Byte) (s : State) : exec (decodeByte0 b) s = .next (s.writeByte 0 b) := by
  have hbyte := Encoding.wire0.inj (encode_decodeByte0 b)
  exact congrArg (fun c => Host.Outcome.next (s.writeByte 0 c)) hbyte

/-- A byte read as its fields and executed is that byte received at offset 1. -/
theorem exec_decodeByte1 (b : Byte) (s : State) : exec (decodeByte1 b) s = .next (s.writeByte 1 b) := by
  have hbyte := Encoding.wire1.inj (encode_decodeByte1 b)
  exact congrArg (fun c => Host.Outcome.next (s.writeByte 1 c)) hbyte

/-- Settles O9: the write stores the byte that the decoded row stores. -/
theorem stepReceivesControlByte : Obligations.StepReceivesControlByte := by
  unfold Obligations.StepReceivesControlByte
  intro s v rest
  refine ⟨fun h => ⟨_, rfl, ?_⟩, fun h => ⟨_, rfl, ?_⟩⟩
  · rw [exec_decodeByte0]
    exact step_write_buf h rfl
  · rw [exec_decodeByte1]
    exact step_write_buf h rfl

/-- Settles O42: each row stores one byte, whose fields add up to it. -/
theorem controlBytesAreStored : Obligations.ControlBytesAreStored := by
  unfold Obligations.ControlBytesAreStored
  refine ⟨fun s p t f => ⟨_, rfl, rfl, ?_, fun k hk => ?_⟩, fun s i b d => ⟨_, rfl, rfl, ?_, fun k hk => ?_⟩⟩
  · rw [State.readByte_writeByte, if_pos rfl, Wire.byte0_toNat]
  · rw [State.readByte_writeByte, if_neg hk]
  · rw [State.readByte_writeByte, if_pos rfl, Wire.byte1_toNat]
  · rw [State.readByte_writeByte, if_neg hk]

/-- Settles O43: the arm of the reserved `op` is the raise itself. -/
theorem reservedOpRaises : Obligations.ReservedOpRaises := by
  unfold Obligations.ReservedOpRaises
  exact fun s _ => raise_eq .illegalCommand s

/-! ### A command line (R88) -/

/-- A command is carried by a write to `CMD`. -/
theorem encode_of_isCommand {i : Instr} (h : i.isCommand = true) : ∃ v, encode i = .command v := by
  cases i with
  | hdrByte0 _ _ _ | hdrByte1 _ _ _ => cases h
  | _ => exact ⟨_, rfl⟩

/-- A pseudo-command is executed as the WIDTH it abbreviates (R89). -/
theorem exec_expand (i : Instr) (s : State) : exec i.expand s = exec i s := by cases i <;> rfl

/-- Settles O14: the line writes the command's word to `CMD`, where it decodes to the command or, for a pseudo-command,
to its WIDTH. -/
theorem commandLineRunsItsCommand : Obligations.CommandLineRunsItsCommand := by
  unfold Obligations.CommandLineRunsItsCommand
  intro s t i rest hwf hcmd hpending hexec
  obtain ⟨v, hv⟩ := encode_of_isCommand hcmd
  have hdec := decode_encode hwf
  rw [assemble, hv] at hpending
  rw [hv] at hdec
  rw [← exec_expand] at hexec
  exact step_write_cmd_ok hpending rfl hdec hexec

end Sys2Proof.Machine

/-! # The `LOAD` line (`30_encoding.md` R90): statement O7 -/

namespace Sys2Proof.Machine

/-! ### Bytes stored one after the other -/

/-- The bytes stored from offset `k` on, first byte first: what the `PUTB` transactions of a `LOAD` do
(`run_loadBytes`). -/
def storeBytes : Nat → List Byte → State → State
  | _, [], s => s
  | k, b :: bs, s => storeBytes (k + 1) bs (s.writeByte k b)

theorem storeBytes_only_buf (k : Nat) (bs : List Byte) (s : State) :
    storeBytes k bs s = { s with buf := (storeBytes k bs s).buf } := by
  induction bs generalizing k s with
  | nil => rfl
  | cons b bs ih =>
    rw [storeBytes, ih]
    rfl

theorem storeBytes_pending (k : Nat) (bs : List Byte) (s : State) : (storeBytes k bs s).pending = s.pending := by
  rw [storeBytes_only_buf]

/-- From `k` on stand the stored bytes, then what stood there before; below `k` nothing is stored. -/
theorem readByte_storeBytes (k : Nat) (bs : List Byte) (s : State) (j : Nat) :
    (storeBytes k bs s).readByte j = if j < k then s.readByte j else bs.getD (j - k) (s.readByte j) := by
  induction bs generalizing k s with
  | nil => rw [storeBytes, List.getD_nil, ite_self]
  | cons b bs ih =>
    rw [storeBytes, ih, State.readByte_writeByte]
    rcases Nat.lt_trichotomy j k with hlt | rfl | hgt
    · rw [if_pos (by omega), if_neg (by omega), if_pos hlt]
    · rw [if_pos (by omega), if_pos rfl, if_neg (by omega), Nat.sub_self, List.getD_cons_zero]
    · obtain ⟨m, rfl⟩ := Nat.exists_eq_add_of_lt hgt
      rw [if_neg (by omega), if_neg (by omega), if_neg (by omega), show k + m + 1 - (k + 1) = m by omega,
        show k + m + 1 - k = m + 1 by omega, List.getD_cons_succ]

/-! ### The run of the line -/

theorem locate_byteAddr {k : Nat} (hk : k < Config.BUFCAP) : locate (byteAddr (BitVec.ofNat 8 k)) = .buf k := by
  have hall : ∀ k, k < Config.BUFCAP → locate (byteAddr (BitVec.ofNat 8 k)) = .buf k := by decide
  exact hall k hk

/-- A run whose first step answers a next state goes on from there. -/
theorem run_succ {s t : State} (h : step s = .next t) (n : Nat) :
    Host.Core.run Sys2Proof.core (n + 1) s = Host.Core.run Sys2Proof.core n t := by
  have hcore : Sys2Proof.core.step s = .next t := h
  simp only [Host.Core.run, hcore]

/-- The `PUTB` transactions of a `LOAD` store its bytes, then the rest of the program runs. -/
theorem run_loadBytes {k : Nat} {bs : List Byte} {s : State} {rest : List HostTx} (hk : k + bs.length ≤ Config.BUFCAP)
    (hp : s.pending = loadBytes k bs ++ rest) (n : Nat) :
    Host.Core.run Sys2Proof.core (bs.length + n) s =
      Host.Core.run Sys2Proof.core n (storeBytes k bs { s with pending := rest }) := by
  induction bs generalizing k s with
  | nil =>
    obtain rfl : s.pending = rest := hp
    rw [List.length_nil, Nat.zero_add]
    rfl
  | cons b bs ih =>
    rw [List.length_cons] at hk
    have hstep := step_write_buf hp (locate_byteAddr (k := k) (by omega))
    rw [List.length_cons, Nat.add_right_comm, run_succ hstep, BitVec.setWidth_setWidth_of_le _ (by decide),
      BitVec.setWidth_eq, ih (by omega) rfl]
    rfl

/-- A `SETLEN` of a count that fits, alone in a run (R28). -/
theorem run_setlen {s : State} {n : Nat} {rest : List HostTx} (hn : n ≤ Config.BUFCAP)
    (hp : s.pending = .write Config.BLEN_ADDR (BitVec.ofNat 64 n) :: rest) :
    Host.Core.run Sys2Proof.core 1 s = .next { s with pending := rest, blen := BitVec.ofNat 8 n } := by
  have hval : (BitVec.ofNat 64 n).toNat = n :=
    (BitVec.toNat_ofNat n 64).trans (Nat.mod_eq_of_lt (hn.trans_lt (by decide)))
  rw [run_succ (step_write_blen hp rfl), hostSetBlen_eq, hval, if_pos hn]
  rfl

/-- Settles O7: the bytes are stored in turn, then their count, which fits, is written to `BLEN`. -/
theorem loadLineFillsBuffer : Obligations.LoadLineFillsBuffer := by
  unfold Obligations.LoadLineFillsBuffer
  intro s bytes rest hlen hp
  rw [assemble, List.append_assoc] at hp
  have hload := (run_loadBytes (by omega) hp 1).trans (run_setlen hlen (storeBytes_pending 0 bytes _))
  refine ⟨_, hload, ?_, readByte_storeBytes 0 bytes _⟩
  rw [storeBytes_only_buf]
  rfl

end Sys2Proof.Machine

/-! # What an instruction changes, and what it depends on (`10_state.md` R22, R27, R31): statements O20, O21, O22 -/

namespace Sys2Proof.Machine

/-! ### The frame (R22) -/

/-- BUILD writes `RES` and no other register. -/
theorem readReg_built (s : State) (r : Reg) (hr : r ≠ .res) : (built s).readReg r = s.readReg r := by
  cases r with
  | res => exact absurd rfl hr
  | _ => rfl

/-- Settles O20: an exception changes the code alone, and each completed instruction what its line of `exec_cases`
says. -/
theorem instructionFrame : Obligations.InstructionFrame := by
  unfold Obligations.InstructionFrame
  intro i s t hexec
  obtain ⟨hcmd, e, -, hraise⟩ | hdone := exec_cases i s
  · cases hexec.symm.trans hraise
    exact ⟨fun r _ => s.readReg_setCode _ r, fun _ => rfl, fun hc => absurd (hcmd.symm.trans hc) (by decide),
      fun _ _ => rfl, rfl, rfl, rfl⟩
  · cases i with
    | width _ _ | zzenc | zzdec | wmsgid | wmsgtype | wfwd | wbody | wdata =>
      cases hexec.symm.trans hdone
      exact ⟨fun r hr => s.readReg_setReg_other .res r _ (of_decide_eq_false hr), fun _ => rfl, nofun, fun _ _ => rfl,
        rfl, rfl, rfl⟩
    | fenc off w =>
      obtain ⟨-, -, hnext⟩ := hdone
      have ht := Host.Outcome.next.inj (hexec.symm.trans hnext)
      have hbytes (k : Nat) (hk : ¬ mayStoreAt (.fenc off w) s k) : t.readByte k = s.readByte k :=
        (readByte_of_memWrite t s _ _ k s.val (by rw [ht]) (by rw [ht])).trans (if_neg hk)
      subst ht
      exact ⟨fun r _ => by cases r <;> rfl, fun _ => rfl, nofun, hbytes, rfl, rfl, rfl⟩
    | fdec off w =>
      obtain ⟨-, -, hnext⟩ := hdone
      cases hexec.symm.trans hnext
      exact ⟨fun r hr => s.readReg_setReg_other .res r _ (of_decide_eq_false hr), fun _ => rfl, nofun, fun _ _ => rfl,
        rfl, rfl, rfl⟩
    | build =>
      obtain ⟨-, hnext⟩ := hdone
      cases hexec.symm.trans hnext
      exact ⟨fun r hr => readReg_built s r (of_decide_eq_false hr), fun hne => absurd rfl hne, nofun,
        fun k hk => readByte_built_beyond s k (Nat.not_lt.mp hk), rfl, rfl, rfl⟩
    | parse =>
      obtain ⟨-, hnext⟩ := hdone
      cases hexec.symm.trans hnext
      refine ⟨fun r hr => ?_, fun _ => rfl, nofun, fun _ _ => rfl, rfl, rfl, rfl⟩
      obtain rfl : r = .val := not_not.mp (of_decide_eq_false hr)
      rfl
    | reservedOp7 r => exact hdone.elim
    | hdrByte0 _ _ _ | hdrByte1 _ _ _ =>
      obtain ⟨b, hnext⟩ := hdone
      cases hexec.symm.trans hnext
      refine ⟨fun r _ => s.readReg_writeByte _ b r, fun _ => rfl, fun _ => rfl, fun k hk => ?_, rfl, rfl, rfl⟩
      rw [State.readByte_writeByte]
      exact if_neg hk

/-! ### An earlier code makes no difference (R27) -/

section EarlierCode

variable (s : State) (c : BitVec 3)

theorem memWrite_setCode (off n : Nat) (v : Word) :
    memWrite (s.setCode c) off n v = (memWrite s off n v).setCode c := by
  induction n with
  | zero => rfl
  | succ n ih =>
    rw [memWrite, ih]
    rfl

theorem memRead_setCode (off n : Nat) : memRead (s.setCode c) off n = memRead s off n :=
  memRead_congr _ _ _ _ fun _ _ => rfl

theorem writeFields_setCode (w : ControlWord) : writeFields w (s.setCode c) = (writeFields w s).setCode c := by
  simp only [writeFields, memWrite_setCode, State.readReg_setCode]

theorem writeControl_setCode (w : ControlWord) : writeControl w (s.setCode c) = (writeControl w s).setCode c := rfl

theorem controlToBuild_setCode : controlToBuild (s.setCode c) = controlToBuild s := rfl

theorem built_setCode : built (s.setCode c) = built s := by
  simp only [built, controlToBuild_setCode, writeControl_setCode, writeFields_setCode]
  rfl

theorem parsed_setCode : parsed (s.setCode c) = parsed s := by
  simp only [parsed, memRead_setCode]
  rfl

theorem execBuild_setCode : execBuild (s.setCode c) = execBuild s := by
  by_cases h : FieldsFit s
  · have h' : FieldsFit (s.setCode c) := h
    rw [execBuild_fits _ h', execBuild_fits s h, built_setCode]
  · have h' : ¬ FieldsFit (s.setCode c) := h
    rw [execBuild_overflow _ h', execBuild_overflow s h]
    rfl

theorem execParse_setCode : execParse (s.setCode c) = execParse s := by
  by_cases h : wireLength s ≤ s.blen.toNat
  · have h' : wireLength (s.setCode c) ≤ (s.setCode c).blen.toNat := h
    rw [execParse_whole _ h', execParse_whole s h, parsed_setCode]
  · have h' : ¬ wireLength (s.setCode c) ≤ (s.setCode c).blen.toNat := h
    rw [execParse_short _ (.inr (Nat.not_le.mp h')), execParse_short s (.inr (Nat.not_le.mp h))]
    rfl

theorem calcWidth_setCode (z : Bool) (w : BitVec 4) : calcWidth z w (s.setCode c) = calcWidth z w s := by
  rw [calcWidth, calcWidth]
  split <;> rfl

end EarlierCode

/-- Settles O22: no command reads the code, and each sets it as it ends. -/
theorem statusIsNotSticky : Obligations.StatusIsNotSticky := by
  unfold Obligations.StatusIsNotSticky
  intro i s c hcmd
  change exec i (s.setCode c) = exec i s
  cases i with
  | width z w => exact calcWidth_setCode s c z w
  | wmsgid => exact calcWidth_setCode s c false 8#4
  | wmsgtype => exact calcWidth_setCode s c false 4#4
  | wfwd | wbody => exact calcWidth_setCode s c true 3#4
  | wdata => exact calcWidth_setCode s c true 7#4
  | zzenc | zzdec | reservedOp7 _ => rfl
  | fenc off w =>
    rw [exec, execFenc, memWrite_setCode]
    rfl
  | fdec off w =>
    rw [exec, execFdec, memRead_setCode]
    rfl
  | build => exact execBuild_setCode s c
  | parse => exact execParse_setCode s c
  | hdrByte0 _ _ _ | hdrByte1 _ _ _ => cases hcmd

/-! ### Equal registers, `BLEN` and bytes give equal results (R31) -/

/-- Both outcomes are next states with the same code, registers, `BLEN` and buffer bytes. -/
def SameResults (o o' : Host.Outcome State Fault Refusal) : Prop :=
  ∃ t t', o = .next t ∧ o' = .next t' ∧ t.code = t'.code ∧ SameInputs t t'

section SameInputs

variable {s s' : State} (h : SameInputs s s')
include h

theorem SameInputs.readReg (r : Reg) : s.readReg r = s'.readReg r := h.1 r

theorem SameInputs.blen : s.blen = s'.blen := h.2.1

theorem SameInputs.readByte {k : Nat} (hk : k < Config.BUFCAP) : s.readByte k = s'.readByte k := h.2.2 k hk

theorem SameInputs.setCode (c c' : BitVec 3) : SameInputs (s.setCode c) (s'.setCode c') := by
  refine ⟨fun r => ?_, h.blen, fun _ => h.readByte⟩
  rw [State.readReg_setCode, State.readReg_setCode, h.readReg]

theorem SameInputs.setReg (r : Reg) (v : Word) : SameInputs (s.setReg r v) (s'.setReg r v) := by
  refine ⟨fun q => ?_, ?_, fun k hk => ?_⟩
  · rw [State.readReg_setReg, State.readReg_setReg, h.readReg]
  · rw [State.setReg_blen, State.setReg_blen, h.blen]
  · rw [State.readByte_setReg, State.readByte_setReg, h.readByte hk]

theorem SameInputs.memWrite (off n : Nat) (v : Word) : SameInputs (memWrite s off n v) (memWrite s' off n v) := by
  refine ⟨fun r => ?_, ?_, fun k hk => ?_⟩
  · rw [memWrite_readReg, memWrite_readReg, h.readReg]
  · rw [memWrite_only_buf, memWrite_only_buf s']
    exact h.blen
  · rw [readByte_memWrite, readByte_memWrite, h.readByte hk]

/-- Reads inside the buffer see the same bytes. -/
theorem SameInputs.memRead {off n : Nat} (hn : off + n ≤ Config.BUFCAP) : memRead s off n = memRead s' off n :=
  memRead_congr s s' off n fun k hk => h.readByte (by omega)

/-- The header is made from the registers, and the bytes beyond it are kept. -/
theorem SameInputs.built : SameInputs (built s) (built s') := by
  have hr (r : Reg) (_ : r ≠ .val) (_ : r ≠ .res) : s.readReg r = s'.readReg r := h.readReg r
  have hc := controlToBuild_congr hr
  refine ⟨fun r => ?_, by rw [Machine.built, Machine.built, hc], fun k hk => ?_⟩
  · by_cases hres : r = .res
    · rw [hres, Machine.built, Machine.built, hc]
      rfl
    · rw [readReg_built s r hres, readReg_built s' r hres, h.readReg]
  · by_cases hlen : k < headerLength (controlToBuild s)
    · exact readByte_built_congr hr k hlen
    · rw [readByte_built_beyond s k (by omega), readByte_built_beyond s' k (by rw [← hc]; omega), h.readByte hk]

/-- A header is no longer than the buffer. -/
theorem SameInputs.header (k : Nat) (hk : k < wireLength s) : s.readByte k = s'.readByte k := by
  obtain ⟨-, hmax⟩ := wireLength_bounds s
  exact h.readByte (by simp only [Config.BUFCAP]; omega)

theorem SameInputs.wireLength : wireLength s = wireLength s' := by
  rw [← headerLength_inBuffer, ← headerLength_inBuffer, controlInBuffer_congr_of_header h.header]

theorem SameInputs.parsed : SameInputs (parsed s) (parsed s') := by
  refine ⟨fun r => ?_, h.blen, fun _ => h.readByte⟩
  by_cases hval : r = .val
  · rw [hval]
    exact h.readReg .val
  · exact readReg_parsed_congr h.header r hval

/-! Each command's branches are decided by the inputs, and each branch ends the same way from both states. -/

theorem SameInputs.complete : SameResults (complete s) (complete s') :=
  ⟨_, _, rfl, rfl, rfl, h.setCode _ _⟩

theorem SameInputs.raise (e : Completion) : SameResults (raise e s) (raise e s') :=
  ⟨_, _, rfl, rfl, rfl, h.setCode _ _⟩

/-- A command that writes `RES` from `VAL` alone. -/
theorem SameInputs.resFromVal (f : Word → Word) :
    SameResults (Machine.complete (s.setReg .res (f (s.readReg .val))))
      (Machine.complete (s'.setReg .res (f (s'.readReg .val)))) := by
  rw [h.readReg .val]
  exact (h.setReg .res _).complete

theorem SameInputs.calcWidth (z : Bool) (w : BitVec 4) : SameResults (calcWidth z w s) (calcWidth z w s') := by
  unfold Machine.calcWidth
  split
  · exact h.resFromVal fun v => BitVec.ofNat 64 (minbytes v w.toNat z)
  · exact h.raise .illegalCommand

theorem SameInputs.execFenc (off : BitVec 8) (w : BitVec 4) : SameResults (execFenc off w s) (execFenc off w s') := by
  unfold Machine.execFenc
  rw [h.readReg .val]
  split
  · split
    · exact (h.memWrite _ _ _).complete
    · exact h.raise .bufferBounds
  · exact h.raise .illegalCommand

theorem SameInputs.execFdec (off : BitVec 8) (w : BitVec 4) : SameResults (execFdec off w s) (execFdec off w s') := by
  unfold Machine.execFdec
  split
  · split
    next hoff =>
      rw [h.memRead (of_decide_eq_true hoff)]
      exact (h.setReg .res _).complete
    next => exact h.raise .bufferBounds
  · exact h.raise .illegalCommand

theorem SameInputs.execBuild : SameResults (execBuild s) (execBuild s') := by
  by_cases hfit : FieldsFit s
  · have hfit' : FieldsFit s' := hfit.congr fun r _ _ => h.readReg r
    rw [execBuild_fits s hfit, execBuild_fits s' hfit']
    exact ⟨_, _, rfl, rfl, rfl, h.built⟩
  · have hfit' : ¬ FieldsFit s' := fun hf => hfit (hf.congr fun r _ _ => (h.readReg r).symm)
    rw [execBuild_overflow s hfit, execBuild_overflow s' hfit']
    exact h.raise .fieldOverflow

theorem SameInputs.execParse : SameResults (execParse s) (execParse s') := by
  by_cases hlen : Machine.wireLength s ≤ s.blen.toNat
  · have hlen' : Machine.wireLength s' ≤ s'.blen.toNat := by rwa [← h.wireLength, ← h.blen]
    rw [execParse_whole s hlen, execParse_whole s' hlen']
    exact ⟨_, _, rfl, rfl, rfl, h.parsed⟩
  · have hlen' : ¬ Machine.wireLength s' ≤ s'.blen.toNat := by rwa [← h.wireLength, ← h.blen]
    rw [execParse_short s (.inr (Nat.not_le.mp hlen)), execParse_short s' (.inr (Nat.not_le.mp hlen'))]
    exact h.raise .incompleteHeader

end SameInputs

/-- Settles O21: each command computes from the inputs alone what it leaves, and whether it raises. -/
theorem noHiddenState : Obligations.NoHiddenState := by
  unfold Obligations.NoHiddenState
  intro i s s' hcmd h
  change SameResults (exec i s) (exec i s')
  cases i with
  | width z w => exact h.calcWidth z w
  | wmsgid => exact h.calcWidth false 8#4
  | wmsgtype => exact h.calcWidth false 4#4
  | wfwd | wbody => exact h.calcWidth true 3#4
  | wdata => exact h.calcWidth true 7#4
  | zzenc => exact h.resFromVal zzenc
  | zzdec => exact h.resFromVal zzdec
  | fenc off w => exact h.execFenc off w
  | fdec off w => exact h.execFdec off w
  | build => exact h.execBuild
  | parse => exact h.execParse
  | reservedOp7 _ => exact h.raise .illegalCommand
  | hdrByte0 _ _ _ | hdrByte1 _ _ _ => cases hcmd

end Sys2Proof.Machine

/-! # Which command can end with which code (`60_exceptions.md` R185): statement O19 -/

namespace Sys2Proof.Machine

/-! ### The `op` of a command's word (R85) -/

theorem opOf_commandWord (op : BitVec 3) (z : Bool) (w : BitVec 4) (off : BitVec 8) :
    opOf ((commandWord op z w off).setWidth 64) = op.toNat := by
  have hop := op.isLt; have hw := w.isLt; have hoff := off.isLt
  have hz : z.toNat ≤ 1 := Bool.toNat_le z
  rw [opOf, BitVec.toNat_setWidth_of_le (by decide), commandWord_toNat]
  omega

/-- The word of one of the seven commands carries its `op` (R85). -/
def opcode : Instr → Nat
  | .zzenc => 1
  | .zzdec => 2
  | .fenc _ _ => 3
  | .fdec _ _ => 4
  | .build => 5
  | .parse => 6
  | .reservedOp7 _ => 7
  | .width _ _ | .wmsgid | .wmsgtype | .wfwd | .wbody | .wdata => 0
  | .hdrByte0 _ _ _ | .hdrByte1 _ _ _ => 0

theorem opOf_of_encode {i : Instr} {v : Word} (hi : isSeven i = true) (h : encode i = .command v) :
    opOf v = opcode i := by
  cases i with
  | width _ _ | zzenc | zzdec | fenc _ _ | fdec _ _ | build | parse =>
    cases h
    exact opOf_commandWord ..
  | reservedOp7 _ | wmsgid | wmsgtype | wfwd | wbody | wdata | hdrByte0 _ _ _ | hdrByte1 _ _ _ => cases hi

/-! ### The codes of a legal command -/

/-- The rows of R185 for a command whose immediates are legal. -/
def MayEndWith (op : Nat) (c : BitVec 3) : Prop :=
  c = 0#3 ∨ ((op = 3 ∨ op = 4) ∧ c = 4#3) ∨ (op = 5 ∧ c = 2#3) ∨ (op = 6 ∧ c = 1#3)

theorem exec_mayEndWith {i : Instr} {s t : State} (hi : isSeven i = true) (hwf : i.wellFormed = true)
    (h : exec i s = .next t) : MayEndWith (opcode i) t.code := by
  cases i with
  | width z w =>
    cases h.symm.trans (calcWidth_legal z w s hwf)
    exact .inl rfl
  | zzenc | zzdec =>
    cases h
    exact .inl rfl
  | fenc off w =>
    have hw : w.toNat ≤ 8 := of_decide_eq_true hwf
    by_cases hoff : off.toNat + w.toNat ≤ Config.BUFCAP
    · cases h.symm.trans (exec_fenc_legal s off w hw hoff)
      exact .inl rfl
    · cases h.symm.trans (exec_fenc_outOfBounds s off hw (Nat.not_le.mp hoff))
      exact .inr (.inl ⟨.inl rfl, rfl⟩)
  | fdec off w =>
    have hw : w.toNat ≤ 8 := of_decide_eq_true hwf
    by_cases hoff : off.toNat + w.toNat ≤ Config.BUFCAP
    · cases h.symm.trans (exec_fdec_legal s off w hw hoff)
      exact .inl rfl
    · cases h.symm.trans (exec_fdec_outOfBounds s off hw (Nat.not_le.mp hoff))
      exact .inr (.inl ⟨.inr rfl, rfl⟩)
  | build =>
    by_cases hfit : FieldsFit s
    · cases h.symm.trans (execBuild_fits s hfit)
      exact .inl rfl
    · cases h.symm.trans (execBuild_overflow s hfit)
      exact .inr (.inr (.inl ⟨rfl, rfl⟩))
  | parse =>
    by_cases hlen : wireLength s ≤ s.blen.toNat
    · cases h.symm.trans (execParse_whole s hlen)
      exact .inl rfl
    · cases h.symm.trans (execParse_short s (.inr (Nat.not_le.mp hlen)))
      exact .inr (.inr (.inr ⟨rfl, rfl⟩))
  | reservedOp7 _ | wmsgid | wmsgtype | wfwd | wbody | wdata | hdrByte0 _ _ _ | hdrByte1 _ _ _ => cases hi

/-- A value written to `CMD` is illegal and ends with code 3, or is legal and ends with a code of its `op`. -/
theorem runCommand_code (v : Word) (s : State) :
    ∃ t, runCommand v s = .next t ∧ t.replies = s.replies ∧
      (IllegalValue v ∧ t.code = 3#3 ∨ ¬ IllegalValue v ∧ MayEndWith (opOf v) t.code) := by
  obtain ⟨hillegal, hlegal⟩ := decode_command_decided v
  by_cases hv : IllegalValue v
  · exact ⟨_, runCommand_of_selectsNone s (hillegal hv), rfl, .inl ⟨hv, rfl⟩⟩
  · obtain ⟨i, hdec, hseven, hwf⟩ := hlegal hv
    obtain ⟨t, ht⟩ := exec_next i s
    obtain ⟨-, -, -, -, -, hreplies, -⟩ := instructionFrame i s t ht
    refine ⟨t, (runCommand_ok s hdec).trans ht, hreplies, .inr ⟨hv, ?_⟩⟩
    rw [opOf_of_encode hseven (encode_of_decode_command hdec)]
    exact exec_mayEndWith hseven hwf ht

/-- Of the commands without operands, only a must-be-zero field is illegal. -/
theorem mbzViolated_of_illegal {v : Word} (hv : v.toNat < 2 ^ 16) (h : IllegalValue v)
    (hop : opOf v = 1 ∨ opOf v = 2 ∨ opOf v = 5 ∨ opOf v = 6) : mbzViolated v := by
  obtain h | h | h | ⟨h, -⟩ | ⟨h, -⟩ := h
  · omega
  · omega
  · exact h
  · omega
  · omega

/-- Settles O19: an illegal value ends with code 3, in the rows without operands by a must-be-zero field; a legal one
ends with a code of its `op`, which excludes the other rows. -/
theorem codesEachCommandCanReturn : Obligations.CodesEachCommandCanReturn := by
  unfold Obligations.CodesEachCommandCanReturn
  intro s v rest h
  obtain ⟨t, hrun, hreplies, hcode⟩ := runCommand_code v { s with pending := rest }
  have hstep : step s = .next (t.pushReply (.code t.code)) := by
    rw [step_write_cmd h rfl, hrun]
    rfl
  refine ⟨_, t.code, hstep, rfl, congrArg _ hreplies, ?_⟩
  obtain ⟨hill, hc⟩ | ⟨hlegal, hc⟩ := hcode
  · have hmbz := mbzViolated_of_illegal (v := v)
    rw [hc]
    exact ⟨fun _ => rfl, fun hv => ⟨fun _ => .inr rfl, fun hop => .inr ⟨rfl, hmbz hv hill (by omega)⟩,
      fun _ => .inr (.inl rfl), fun hop => .inr (.inr ⟨rfl, hmbz hv hill (by omega)⟩),
      fun hop => .inr (.inr ⟨rfl, hmbz hv hill (by omega)⟩)⟩⟩
  · refine ⟨?_, fun hv => ?_⟩
    · rintro (hv | hop)
      · exact absurd (.inl hv) hlegal
      · exact absurd (.inr (.inl hop)) hlegal
    · obtain hc | ⟨hop, hc⟩ | ⟨hop, hc⟩ | ⟨hop, hc⟩ := hc
      · exact ⟨fun _ => .inl hc, fun _ => .inl hc, fun _ => .inl hc, fun _ => .inl hc, fun _ => .inl hc⟩
      · exact ⟨by omega, by omega, fun _ => .inr (.inr hc), by omega, by omega⟩
      · exact ⟨by omega, by omega, by omega, fun _ => .inr (.inl hc), by omega⟩
      · exact ⟨by omega, by omega, by omega, by omega, fun _ => .inr (.inl hc)⟩

end Sys2Proof.Machine
